-- ==== Sys2Proof/Word.lean ====
section
/-! DEFINITION. The plain data types of the engine: bytes, bus words, register words, window offsets, and the algorithm variant (spec 00_scope.md R2, R7). -/

namespace Sys2Proof

/-- A byte, 8 bits (R7). -/
abbrev Byte := BitVec 8

/-- One bus word, also one command word: 32 bits (R6, R61). -/
abbrev Word32 := BitVec 32

/-- The storage width of the chaining registers, the latched words and BLKCNT: 64 bits (R20). -/
abbrev Word64 := BitVec 64

/-- A byte offset inside the 1 KiB engine window: the 10-bit `addr` port (R40, R42). -/
abbrev Offset := BitVec 10

/-- The two algorithm variants (R2). STATUS.VARIANT = 0 is SHA-256 and 1 is SHA-512 (R22). -/
inductive Variant where
  | sha256
  | sha512
  deriving DecidableEq, Repr

end Sys2Proof
end

