-- ==== Sys2Proof/Config.lean ====
section
/-! DEFINITION. Configuration: the per-variant sizes of R5, the interface parameters of R6 and the register map offsets of R43, the outputs of the bus port (R40), and the free values (opaque, no body): what the spec leaves open. The rotation amounts, round constants and initialization vectors stand in Machine/Rom.lean. -/

namespace Sys2Proof

/-- Word width `w` in bits (R5). -/
abbrev Variant.wordBits : Variant → Nat
  | .sha256 => 32
  | .sha512 => 64

/-- Word width `ws` in bytes (R5, R75). -/
def Variant.wordBytes : Variant → Nat
  | .sha256 => 4
  | .sha512 => 8

/-- BLOCK_BYTES (R5). -/
def Variant.blockBytes : Variant → Nat
  | .sha256 => 64
  | .sha512 => 128

/-- ROUNDS, which is also SCHED_LEN (R5: "one round per schedule word"). -/
def Variant.rounds : Variant → Nat
  | .sha256 => 64
  | .sha512 => 80

/-- LEN_BYTES, the length field of the padding (R5, R139). -/
def Variant.lenBytes : Variant → Nat
  | .sha256 => 8
  | .sha512 => 16

/-- DIGEST_BYTES (R5). -/
def Variant.digestBytes : Variant → Nat
  | .sha256 => 32
  | .sha512 => 64

/-- HEX_CHARS (R5). -/
def Variant.hexChars : Variant → Nat
  | .sha256 => 64
  | .sha512 => 128

/-- What the port answers when a transaction completes: the outputs `ack`, `err` and `rdata` of R40.
`rdata` is `none` for a write, whose read data has no meaning (R40: valid when `we` = 0). -/
structure Reply where
  ack : Bool
  err : Bool
  rdata : Option Word32
  deriving DecidableEq, Repr

namespace Config

/-- The constant content of ID (R27): the ASCII bytes "SHA2". -/
def idValue : Word32 := 0x53484132

/-- Size of the engine window in bytes (R42). -/
def windowBytes : Nat := 1024

/-- Offset of BLK in the window (R43). -/
def blkBase : Nat := 0x100

/-- Size of BLK in bytes (R6, R30). -/
def blkBytes : Nat := 128

/-- Offset of CMD, where a command word is written (R28, R43). -/
def cmdOffset : Offset := 0x004

/-- Offset of STATUS (R43). -/
def statusOffset : Offset := 0x008

/-- FREE VALUE for COMPRESS_LATENCY (R125, P1, U1; log entry 1): how many turns of the environment
(transactions or idle turns) pass between the acceptance of a compression and its COMPLETE step, for the
engine `e` of a system and the `n`-th value it draws. Every value is finite, and it may differ between
compressions and between engines; no proof can see it. -/
opaque compressLatency (e n : Nat) : Nat

/-- FREE VALUE (R170, U9; log entry 7): what the port answers, if anything, to a transaction that a
reset cuts off, for the engine `e` of a system and the `n`-th value it draws. -/
opaque cutReply (e n : Nat) : Option Reply

/-- FREE VALUE for NUM_INSTANCES (R163, P3), less one: the number of engines is at least 1. -/
opaque extraInstances : Nat

/-- NUM_INSTANCES (P3). -/
def numInstances : Nat := extraInstances + 1

/-- FREE VALUE for ENGINE_BASE (R42, P2): the host address of the window of instance `i`. -/
opaque engineBase : Nat → Nat

end Config

end Sys2Proof
end

