-- ==== Sys2Proof/Machine/HostSyntax.lean ====
section
/-! DEFINITION. What the outside world can do to the engine: bus accesses (20_memory.md R40-R47), host statements and the host assembly (30_encoding.md R69-R74), and reset (70_reset_and_hazards.md R170). -/

namespace Sys2Proof.Machine

/-- One bus transaction (R40, R44): always one 32-bit word. -/
inductive Access where
  | read (off : Offset)
  | write (off : Offset) (v : Word32)
  deriving DecidableEq, Repr

/-- A base statement of a host program (R69, R70). -/
inductive Stmt where
  | wr (off : Offset) (v : Word32)
  | rd (off : Offset)
  | poll (off : Offset) (mask value : Word32)
  deriving DecidableEq, Repr

/-- What the environment does next, one entry a turn.
`stmt`: the next statement of a host program, which a bus error stops (R69, R152).
`access`: a transaction on the port that belongs to no program, so that a bus error is only answered
on the port and the engine goes on accepting transactions (R150, R158).
`reset`: `rst` = 1 at a clock edge (R170), with the transaction it cuts off, if one was in progress. -/
inductive Input where
  | stmt (st : Stmt)
  | access (a : Access)
  | reset (cut : Option Access)
  deriving DecidableEq, Repr

/-- A statement of the host assembly: the base statements (R69, R70) and the pseudo-statements
(R71-R74). `ldblk` carries the byte sequence it loads; `rddig` the variant that fixes how many words it
reads. -/
inductive Asm where
  | wr (off : Offset) (v : Word32)
  | rd (off : Offset)
  | poll (off : Offset) (mask value : Word32)
  | nop
  | init256
  | init512
  | compress
  | final
  | cmdRaw (v : Word32)
  | wait
  | ldblk (b : List Byte)
  | rddig (v : Variant)
  deriving DecidableEq, Repr

end Sys2Proof.Machine
end

