-- ==== Sys2Proof/Syntax.lean ====
section
/-! DEFINITION. The command words of the engine: one constructor per row of spec/opcode_table.json (30_encoding.md R60-R63). -/

namespace Sys2Proof

/-- A command the host can write to CMD (R62). The one operand is V of INIT, already turned into the
variant it selects (R63). -/
inductive Instr where
  | nop
  | init (v : Variant)
  | compress
  | final
  deriving DecidableEq, Repr

end Sys2Proof
end

