-- ==== Sys2Proof/WellFormed.lean ====
section
/-! DEFINITION. Which terms are well formed: every command is; an LDBLK has a length condition (30_encoding.md R73); a message has a domain (44_host_reference.md R136). -/

namespace Sys2Proof

/-- Every term of `Instr` is a command of R65: the only operand is one bit, and both of its values
select a variant (R63). -/
def Instr.wf : Instr → Bool
  | .nop => true
  | .init _ => true
  | .compress => true
  | .final => true

/-- R73: LDBLK takes a byte sequence whose length is a multiple of 4 and at most 128. No other statement
has a condition. -/
def Machine.Asm.wf : Machine.Asm → Bool
  | .wr _ _ => true
  | .rd _ => true
  | .poll _ _ _ => true
  | .nop => true
  | .init256 => true
  | .init512 => true
  | .compress => true
  | .final => true
  | .cmdRaw _ => true
  | .wait => true
  | .ldblk b => decide (b.length % 4 = 0 ∧ b.length ≤ Config.blkBytes)
  | .rddig _ => true

/-- R136: a message of `n` bytes has a digest iff `8 * n < 2^64`, for both variants (C4). -/
def messageLengthInDomain (n : Nat) : Bool := decide (8 * n < 2 ^ 64)

end Sys2Proof
end

