-- ==== Sys2Proof/Decode.lean ====
section
/-! DEFINITION. Decoding a command word, total on every 32-bit value (30_encoding.md R65, R66), the same reading as a match-and-mask table, and the encoder (R61-R63). -/

namespace Sys2Proof

/-- Why a command word decodes to no command (R65, R66). -/
inductive DecodeError where
  /-- OP is in 4..15. -/
  | badOpcode
  /-- OP is in 0..3 and a reserved bit is set. -/
  | reservedBits
  deriving DecidableEq, Repr

/-- The outcome of decoding a command word. -/
inductive Decoded where
  | command (i : Instr)
  | illegal (e : DecodeError)
  deriving DecidableEq, Repr

/-- OP, bits 3:0 (R61). -/
def opField (c : Word32) : BitVec 4 := c.extractLsb' 0 4

/-- V, bit 8 (R61). -/
def vField (c : Word32) : BitVec 1 := c.extractLsb' 8 1

/-- The reserved bits of an INIT word (R64). -/
def initReservedMask : Word32 := 0xFFFFFEF0

/-- The reserved bits of a NOP, COMPRESS or FINAL word (R64). -/
def otherReservedMask : Word32 := 0xFFFFFFF0

/-- The reserved bits of a word whose OP is `op` (R64). -/
def reservedMask (op : BitVec 4) : Word32 := if op = 1 then initReservedMask else otherReservedMask

/-- V = 0 selects SHA-256 and V = 1 SHA-512 (R63). -/
def variantOfV (b : BitVec 1) : Variant := if b = 1 then .sha512 else .sha256

/-- The V bit that selects a variant (R63). -/
def vOfVariant : Variant → BitVec 1
  | .sha256 => 0
  | .sha512 => 1

/-- R65: the outcome of every command word. -/
def decode (c : Word32) : Decoded :=
  let op := opField c
  if 4 ≤ op.toNat then .illegal .badOpcode
  else if c &&& reservedMask op ≠ 0 then .illegal .reservedBits
  else if op = 0 then .command .nop
  else if op = 1 then .command (.init (variantOfV (vField c)))
  else if op = 2 then .command .compress
  else .command .final

/-- Format CMD32 (R61): RES1 (23 bits), V, RES0 (4 bits), OP; the reserved fields are 0. -/
def encodeFields (v : BitVec 1) (op : BitVec 4) : Word32 :=
  (0 : BitVec 23) ++ v ++ (0 : BitVec 4) ++ op

/-- The command word of an instruction (R62, R63). -/
def encode : Instr → Word32
  | .nop => encodeFields 0 0x0
  | .init v => encodeFields (vOfVariant v) 0x1
  | .compress => encodeFields 0 0x2
  | .final => encodeFields 0 0x3

/-- One row of the match-and-mask table of R65. -/
structure OpcodeRow where
  mnemonic : String
  pattern : Word32
  mask : Word32
  deriving DecidableEq, Repr

/-- A command word belongs to a row iff `(c and mask) = match` (R65). -/
def OpcodeRow.covers (r : OpcodeRow) (c : Word32) : Bool := c &&& r.mask == r.pattern

/-- The row of an instruction in R65's table, which is spec/opcode_table.json. -/
def rowOf : Instr → OpcodeRow
  | .nop => ⟨"NOP", 0x00000000, 0xFFFFFFFF⟩
  | .init _ => ⟨"INIT", 0x00000001, 0xFFFFFEFF⟩
  | .compress => ⟨"COMPRESS", 0x00000002, 0xFFFFFFFF⟩
  | .final => ⟨"FINAL", 0x00000003, 0xFFFFFFFF⟩

/-- The whole match-and-mask table of R65. -/
def opcodeTable : List OpcodeRow :=
  [rowOf .nop, rowOf (.init .sha256), rowOf .compress, rowOf .final]

/-- The instruction the decoder reads from an instruction whose `nbits` bits are `w`, numbered as
spec/opcode_table.json numbers them. A command is one 32-bit bus word, so there are no bytes to order
(R50, R60); bits above `nbits` are 0, and a value wider than 32 bits is no command word. -/
def decodeTableWord (nbits w : Nat) : Option Instr :=
  let c := w % 2 ^ nbits
  if 2 ^ 32 ≤ c then none
  else
    match decode (BitVec.ofNat 32 c) with
    | .command i => some i
    | .illegal _ => none

end Sys2Proof
end

