-- ==== Sys2Proof/Machine/State.lean ====
section
/-! DEFINITION. The machine's state as plain data (10_state.md R20), the reasons a step can stop, and the state after reset (70_reset_and_hazards.md R170). -/

namespace Sys2Proof.Machine

/-- STATUS.PHASE (R23). The value 3 is "never taken; no rule writes it", so the type has no such value
(U3, log entry 6). -/
inductive Phase where
  | idle
  | ready
  | done
  deriving DecidableEq, Repr

/-- STATUS.ERR (R25, R151). Codes 6-15 are never written, so the type has no such value (U4, log
entry 6). -/
inductive ErrCode where
  | none
  | badOpcode
  | reservedBits
  | busy
  | badPhase
  | noBlock
  deriving DecidableEq, Repr

/-- The engine's writable byte memory, BLK, as (window offset, byte) pairs: offsets strictly rising and
no entry whose byte is 0, which is what an unlisted offset reads as (R30: reset value 0x00; log
entry 5). -/
abbrev Memory := List Host.Cell

/-- Why a step stops. -/
inductive Fault where
  /-- BUSERR(off): a statement of a host program made an access that the register map does not admit.
  Raised by the bus statements (Machine/Bus.lean). The spec names this stop for the host's program
  (R69, R152, U7), so it is safe; the engine itself is unchanged and stays usable, which the `access`
  inputs show. -/
  | busError (off : Offset)
  deriving DecidableEq, Repr

/-- Why an instruction is refused. -/
inductive Refusal where
  /-- The instruction has no meaning in this model. Only a refused arm of `exec` would answer it, and no
  arm does. Safe. -/
  | notModelled (mnemonic : String)
  deriving DecidableEq, Repr

/-- Everything the spec gives the engine (R20, R29-R32), the environment's side of the port, and the
model's own bookkeeping of which agent moves next. ID is a constant and CMD has no storage (R27, R28);
the schedule and the working variables exist only inside the COMPLETE step (R33, R34). -/
structure State where
  /-- STATUS.PHASE (R23). -/
  phase : Phase
  /-- STATUS.BUSY (R24). -/
  busy : Bool
  /-- STATUS.VARIANT (R22). -/
  variant : Variant
  /-- STATUS.ERR (R25). -/
  err : ErrCode
  /-- BLKCNT (R29). -/
  blkcnt : Word64
  /-- BLK (R30). -/
  blk : Memory
  /-- H[0..7] (R31). -/
  h : Vector Word64 8
  /-- L[0..15] (R32). -/
  l : Vector Word64 16
  /-- What the environment does next, the next one first (R41; log entry 2). -/
  inputs : List Input
  /-- The results of the RD statements so far, oldest first (R69). -/
  reads : List Word32
  /-- What the port answered last (R40), `none` before any answer. -/
  reply : Option Reply
  /-- The model's own: environment turns left before the COMPLETE step (R125; log entry 1). -/
  latencyLeft : Nat
  /-- The model's own: how many free values have been drawn (log entries 1, 7). -/
  draws : Nat
  /-- The model's own: which engine of a system this is, so that every engine draws free values of its own
  (P3, R163; log entry 13). No access shows it and no step changes it. -/
  engine : Nat
  deriving DecidableEq, Repr

/-- The state right after reset (R170): every element of the engine is 0, and nothing is waiting on the
port. The last six fields are the model's own choice (log entry 8). -/
def State.reset : State where
  phase := .idle
  busy := false
  variant := .sha256
  err := .none
  blkcnt := 0#64
  blk := []
  h := Vector.replicate 8 0#64
  l := Vector.replicate 16 0#64
  inputs := []
  reads := []
  reply := none
  latencyLeft := 0
  draws := 0
  engine := 0

end Sys2Proof.Machine
end

