-- ==== Sys2Proof/Machine/Ops.lean ====
section
/-! DEFINITION. The word operators (00_scope.md R8), the operations on BLK as canonical byte memory (10_state.md R30, 20_memory.md R47, R48), and the one operation that rejects a command (60_exceptions.md R151). -/

namespace Sys2Proof.Machine

/-- Rotation right by `n` within `w` bits, for `1 <= n <= w - 1` (R8). -/
def rotr {w : Nat} (x : BitVec w) (n : Nat) : BitVec w := (x >>> n) ||| (x <<< (w - n))

/-- `zext_64` of R9: a word as a 64-bit register value with zero high bits. -/
def zext64 {w : Nat} (x : BitVec w) : Word64 := x.setWidth 64

/-- A 64-bit register taken at width `w`, bits `w-1:0` (R85, R95). -/
def atWidth (w : Nat) (x : Word64) : BitVec w := x.setWidth w

/-- The byte at a window offset; an offset with no entry reads 0x00, the reset content (R30). -/
def Memory.read : Memory → Nat → Byte
  | [], _ => 0#8
  | (k, b) :: rest, a => if k = a then b else Memory.read rest a

/-- Write one byte and keep the canonical form: writing 0x00, what an unlisted offset reads as, removes
the entry. -/
def Memory.write : Memory → Nat → Byte → Memory
  | [], a, v => if v = 0#8 then [] else [(a, v)]
  | (k, b) :: rest, a, v =>
    if a < k then (if v = 0#8 then (k, b) :: rest else (a, v) :: (k, b) :: rest)
    else if a = k then (if v = 0#8 then rest else (a, v) :: rest)
    else (k, b) :: Memory.write rest a v

/-- Every offset listed is above `lo`, the offsets rise strictly, and no listed byte is 0. -/
def Memory.wfAbove : Nat → Memory → Bool
  | _, [] => true
  | lo, (k, b) :: rest => decide (lo ≤ k) && decide (b ≠ 0#8) && Memory.wfAbove (k + 1) rest

/-- The canonical form of a memory. -/
def Memory.wf (m : Memory) : Bool := Memory.wfAbove 0 m

/-- Only the bytes of BLK, offsets 0x100-0x17F, are listed (R43: nothing else is writable storage). -/
def Memory.onlyBlk (m : Memory) : Bool :=
  m.all fun c => decide (Config.blkBase ≤ c.1) && decide (c.1 < Config.blkBase + Config.blkBytes)

/-- `BLK[i]` (R30). -/
def State.blkByte (s : State) (i : Nat) : Byte := s.blk.read (Config.blkBase + i)

/-- Four bytes in the lanes of one bus word, the first in bits 31:24 (R48, R49). -/
def busLanes (b0 b1 b2 b3 : Byte) : Word32 := b0 ++ b1 ++ b2 ++ b3

/-- Store the four bytes of a bus word at `BLK[4k..4k+3]`, the most significant byte first (R47, R48). -/
def Memory.storeWord (m : Memory) (k : Nat) (v : Word32) : Memory :=
  let a := Config.blkBase + 4 * k
  (((m.write a (v.extractLsb' 24 8)).write (a + 1) (v.extractLsb' 16 8)).write (a + 2)
    (v.extractLsb' 8 8)).write (a + 3) (v.extractLsb' 0 8)

/-- The bus word of `BLK[4k..4k+3]` (R46, R48). -/
def State.blkWord (s : State) (k : Nat) : Word32 :=
  busLanes (s.blkByte (4 * k)) (s.blkByte (4 * k + 1)) (s.blkByte (4 * k + 2)) (s.blkByte (4 * k + 3))

/-- A host write to BLK word `k` (R47). -/
def State.storeBlkWord (s : State) (k : Nat) (v : Word32) : State :=
  { s with blk := s.blk.storeWord k v }

/-- `reject(code)` of R151, the one way a command is refused: STATUS.ERR takes the code and nothing else
changes. -/
def State.reject (s : State) (code : ErrCode) : State := { s with err := code }

/-- The code that a word which decodes to no command is rejected with (R151). -/
def ErrCode.ofDecodeError : DecodeError → ErrCode
  | .badOpcode => .badOpcode
  | .reservedBits => .reservedBits

/-- The environment's turn begins: what it does is taken off the front of `inputs`, and a compression in
flight is one turn nearer its COMPLETE step (R125; log entry 1). -/
def State.takeTurn (s : State) (rest : List Input) : State :=
  { s with inputs := rest, latencyLeft := s.latencyLeft - 1 }

/-- The port answers (R40). -/
def State.answer (s : State) (r : Reply) : State := { s with reply := some r }

/-- `ack` for a write. -/
def writeAck : Reply := ⟨true, false, none⟩

/-- `ack` for a read, with its data. -/
def readAck (d : Word32) : Reply := ⟨true, false, some d⟩

/-- The `err` response of R152: a read that errs returns 0x00000000. -/
def errReply : Access → Reply
  | .read _ => ⟨false, true, some 0⟩
  | .write _ _ => ⟨false, true, none⟩

/-- An RD statement records its result (R69). -/
def State.recordRead (s : State) (d : Word32) : State := { s with reads := s.reads ++ [d] }

end Sys2Proof.Machine
end

