-- ==== Sys2Proof/Machine/Operands.lean ====
section
/-! DEFINITION. The word codec (40_word_codec.md R75-R83): packing bytes into words, unpacking words into bytes, the message words of BLK, and the chaining words at the width of the variant. -/

namespace Sys2Proof.Machine

/-- Big-endian packing: the first byte is the most significant (R76). -/
def packBytes (w : Nat) (bs : List Byte) : BitVec w :=
  bs.foldl (fun acc b => (acc <<< 8) ||| b.setWidth w) 0

/-- `pack_v(b, off)` of R76. Outside `off + ws <= length(b)` the spec gives no meaning and admits no
call, so the answer is `none` (R77, U16). -/
def pack (v : Variant) (b : List Byte) (off : Nat) : Option (BitVec v.wordBits) :=
  if off + v.wordBytes ≤ b.length then some (packBytes v.wordBits ((b.drop off).take v.wordBytes))
  else none

/-- The bytes of a word, most significant first: byte `i` of `n` is `(x >> (8 * (n - 1 - i))) mod 256`. -/
def bytesBE {w : Nat} (n : Nat) (x : BitVec w) : List Byte :=
  (List.range n).map fun i => (x >>> (8 * (n - 1 - i))).setWidth 8

/-- `unpack_v(x)` of R78. -/
def unpack (v : Variant) (x : BitVec v.wordBits) : List Byte := bytesBE v.wordBytes x

/-- All of BLK as a byte sequence (R30). -/
def State.blkBytes (s : State) : List Byte := (List.range Config.blkBytes).map s.blkByte

/-- `pack_v(BLK, ws * t)` of R80: message word `t` of the block in BLK. -/
def State.messageWord (s : State) (v : Variant) (t : Nat) : BitVec v.wordBits :=
  packBytes v.wordBits ((List.range v.wordBytes).map fun i => s.blkByte (v.wordBytes * t + i))

/-- The sixteen message words of the block in BLK, `words(B)` of R122. -/
def State.messageWords (s : State) (v : Variant) : List (BitVec v.wordBits) :=
  (List.range 16).map (s.messageWord v)

/-- What an accepted COMPRESS latches into L (R80, R119). -/
def State.latchedBlock (s : State) : Vector Word64 16 :=
  Vector.ofFn fun t => zext64 (s.messageWord s.variant t.val)

/-- Eight words of width `w`: the working variables `a..h` of one compression (R34, R96), and the
chaining value they are made from and added back to (R95, R105). -/
structure Working (w : Nat) where
  a : BitVec w
  b : BitVec w
  c : BitVec w
  d : BitVec w
  e : BitVec w
  f : BitVec w
  g : BitVec w
  h : BitVec w
  deriving DecidableEq, Repr

/-- `H[0..7]` at width `w` (R95), in the order of the working copy (R96). -/
def workingOfRegs (w : Nat) (r : Vector Word64 8) : Working w :=
  ⟨atWidth w r[0], atWidth w r[1], atWidth w r[2], atWidth w r[3],
   atWidth w r[4], atWidth w r[5], atWidth w r[6], atWidth w r[7]⟩

/-- Eight words back in the 64-bit registers, zero extended (R31, R105). -/
def regsOfWorking {w : Nat} (x : Working w) : Vector Word64 8 :=
  #v[zext64 x.a, zext64 x.b, zext64 x.c, zext64 x.d, zext64 x.e, zext64 x.f, zext64 x.g, zext64 x.h]

/-- The chaining value of the machine, at the width of its variant (R95). -/
def State.chainingValue (s : State) : Working s.variant.wordBits :=
  workingOfRegs s.variant.wordBits s.h

/-- `L[0..15]` at the width of the variant (R85). -/
def State.latchedWords (s : State) : List (BitVec s.variant.wordBits) :=
  s.l.toList.map (atWidth s.variant.wordBits)

/-- The digest bytes of eight chaining words: `unpack_v(H[0]) ++ ... ++ unpack_v(H[7])` (R81). -/
def digestBytesOf (v : Variant) (x : Working v.wordBits) : List Byte :=
  unpack v x.a ++ unpack v x.b ++ unpack v x.c ++ unpack v x.d
    ++ unpack v x.e ++ unpack v x.f ++ unpack v x.g ++ unpack v x.h

end Sys2Proof.Machine
end

