-- ==== Sys2Proof/Machine/Schedule.lean ====
section
/-! DEFINITION. The message schedule expander (41_schedule_expander.md R85-R90), at the width of the variant. -/

namespace Sys2Proof.Machine

/-- The small sigma 0 of the schedule (R86). -/
def smallSigma0 (v : Variant) (x : BitVec v.wordBits) : BitVec v.wordBits :=
  let r := smallSigma0Amounts v
  rotr x r.n0 ^^^ rotr x r.n1 ^^^ (x >>> r.n2)

/-- The small sigma 1 of the schedule (R87). -/
def smallSigma1 (v : Variant) (x : BitVec v.wordBits) : BitVec v.wordBits :=
  let r := smallSigma1Amounts v
  rotr x r.n0 ^^^ rotr x r.n1 ^^^ (x >>> r.n2)

/-- The next schedule word `W[j]`, where `j` is how many words there are (R88). -/
def nextScheduleWord (v : Variant) (ws : List (BitVec v.wordBits)) : BitVec v.wordBits :=
  let j := ws.length
  ws.getD (j - 16) 0 + smallSigma0 v (ws.getD (j - 15) 0) + ws.getD (j - 7) 0
    + smallSigma1 v (ws.getD (j - 2) 0)

/-- Extend the schedule by `n` words, in increasing `j` (R88). -/
def extendSchedule (v : Variant) : Nat → List (BitVec v.wordBits) → List (BitVec v.wordBits)
  | 0, ws => ws
  | n + 1, ws => extendSchedule v n (ws ++ [nextScheduleWord v ws])

/-- `expand_v(L)` of R88: sixteen words to SCHED_LEN words. -/
def expand (v : Variant) (ls : List (BitVec v.wordBits)) : List (BitVec v.wordBits) :=
  extendSchedule v (v.rounds - 16) ls

end Sys2Proof.Machine
end

