-- ==== Sys2Proof/Machine/Compressor.lean ====
section
/-! DEFINITION. The round function, the round loop, the add-back and the compression function (42_compressor.md R95-R106), at the width of the variant. -/

namespace Sys2Proof.Machine

/-- The big sigma 1 of the round (R97). -/
def bigSigma1 (v : Variant) (e : BitVec v.wordBits) : BitVec v.wordBits :=
  let r := bigSigma1Amounts v
  rotr e r.n0 ^^^ rotr e r.n1 ^^^ rotr e r.n2

/-- The big sigma 0 of the round (R100). -/
def bigSigma0 (v : Variant) (a : BitVec v.wordBits) : BitVec v.wordBits :=
  let r := bigSigma0Amounts v
  rotr a r.n0 ^^^ rotr a r.n1 ^^^ rotr a r.n2

/-- The choose function (R98). -/
def ch {w : Nat} (e f g : BitVec w) : BitVec w := (e &&& f) ^^^ (~~~e &&& g)

/-- The majority function (R101). -/
def maj {w : Nat} (a b c : BitVec w) : BitVec w := (a &&& b) ^^^ (a &&& c) ^^^ (b &&& c)

/-- The first temporary of a round (R99). -/
def roundT1 (v : Variant) (x : Working v.wordBits) (k w : BitVec v.wordBits) : BitVec v.wordBits :=
  x.h + bigSigma1 v x.e + ch x.e x.f x.g + k + w

/-- The second temporary of a round (R102). -/
def roundT2 (v : Variant) (x : Working v.wordBits) : BitVec v.wordBits :=
  bigSigma0 v x.a + maj x.a x.b x.c

/-- The round update: all eight working variables at once, from their values before the round (R103). -/
def roundStep (v : Variant) (x : Working v.wordBits) (kw : BitVec v.wordBits × BitVec v.wordBits) :
    Working v.wordBits :=
  let t1 := roundT1 v x kw.1 kw.2
  let t2 := roundT2 v x
  ⟨t1 + t2, x.a, x.b, x.c, x.d + t1, x.e, x.f, x.g⟩

/-- The round loop: round `i` uses `K_v[i]` and `W[i]`, in increasing `i` (R104). -/
def runRounds (v : Variant) (x : Working v.wordBits) (ws : List (BitVec v.wordBits)) :
    Working v.wordBits :=
  ((roundConstants v).zip ws).foldl (roundStep v) x

/-- The add-back, each sum modulo `2^w` (R105). -/
def addBack {w : Nat} (hin x : Working w) : Working w :=
  ⟨hin.a + x.a, hin.b + x.b, hin.c + x.c, hin.d + x.d, hin.e + x.e, hin.f + x.f, hin.g + x.g,
   hin.h + x.h⟩

/-- `compress_v(Hin, L)` of R106. -/
def compress (v : Variant) (hin : Working v.wordBits) (ls : List (BitVec v.wordBits)) :
    Working v.wordBits :=
  addBack hin (runRounds v hin (expand v ls))

/-- The initialization vector as a chaining value (R118). -/
def ivWorking (v : Variant) : Working v.wordBits :=
  let iv := initialVector v
  ⟨iv.getD 0 0, iv.getD 1 0, iv.getD 2 0, iv.getD 3 0, iv.getD 4 0, iv.getD 5 0, iv.getD 6 0,
   iv.getD 7 0⟩

/-- The chaining value after the blocks whose message words are listed, in order (R122). -/
def chain (v : Variant) (hin : Working v.wordBits) (blocks : List (List (BitVec v.wordBits))) :
    Working v.wordBits :=
  blocks.foldl (compress v) hin

end Sys2Proof.Machine
end

