-- ==== Sys2Proof/Machine/Flags.lean ====
section
/-! DEFINITION. The fields of STATUS and the word they make (10_state.md R22-R26), and the digest view that PHASE gates (43_commands.md R121). The engine has no other flags (R38). -/

namespace Sys2Proof.Machine

/-- PHASE, bits 1:0 (R23). -/
def Phase.code : Phase → BitVec 2
  | .idle => 0
  | .ready => 1
  | .done => 2

/-- ERR, bits 11:8 (R25). -/
def ErrCode.code : ErrCode → BitVec 4
  | .none => 0
  | .badOpcode => 1
  | .reservedBits => 2
  | .busy => 3
  | .badPhase => 4
  | .noBlock => 5

/-- BUSY as a bit (R24). -/
def busyBit (b : Bool) : BitVec 1 := if b then 1 else 0

/-- The word a read of STATUS returns: `zext_32(ERR ++ 000 ++ VARIANT ++ 0 ++ BUSY ++ PHASE)` (R46). The
reserved bits read 0 (R26). -/
def State.statusWord (s : State) : Word32 :=
  (s.err.code ++ (0 : BitVec 3) ++ vOfVariant s.variant ++ (0 : BitVec 1) ++ busyBit s.busy
    ++ s.phase.code).setWidth 32

/-- The digest view DV[0..63] (R121): the digest bytes and zeros after them in DONE, zeros otherwise. -/
def State.digestView (s : State) : List Byte :=
  if s.phase = .done then
    digestBytesOf s.variant s.chainingValue ++ List.replicate (64 - s.variant.digestBytes) 0#8
  else List.replicate 64 0#8

/-- DIGEST word `k`: digest-view bytes 4k..4k+3 in the lanes of R49. -/
def State.digestWord (s : State) (k : Nat) : Word32 :=
  busLanes (s.digestView.getD (4 * k) 0) (s.digestView.getD (4 * k + 1) 0)
    (s.digestView.getD (4 * k + 2) 0) (s.digestView.getD (4 * k + 3) 0)

end Sys2Proof.Machine
end

