-- ==== Sys2Proof/Machine/Commands.lean ====
section
/-! DEFINITION. The meaning of the four commands (43_commands.md R117-R120), each with the checks of 60_exceptions.md R153 in their order, and the engine's COMPLETE step (R124). A rejected command is a next state in which only STATUS.ERR changed (R151). -/

namespace Sys2Proof.Machine

/-- What an accepted INIT does (R118): BLK and L are not changed. -/
def State.startMessage (s : State) (v : Variant) : State :=
  { s with
    variant := v
    h := regsOfWorking (ivWorking v)
    blkcnt := 0#64
    phase := .ready
    err := .none }

/-- What an accepted COMPRESS does (R119): latch the block and become busy. The free latency of this
compression is drawn here, one for each engine and each compression (R125, P1; log entries 1 and 13). -/
def State.acceptBlock (s : State) : State :=
  { s with
    l := s.latchedBlock
    busy := true
    latencyLeft := Config.compressLatency s.engine s.draws
    draws := s.draws + 1 }

/-- What an accepted FINAL does (R120). -/
def State.finishMessage (s : State) : State := { s with phase := .done }

/-- NOP is accepted in every phase and while BUSY = 1, and changes nothing (R117; check 3 of R153). -/
def execNop (s : State) : Host.Outcome State Fault Refusal := .next s

/-- INIT (R118): checks 4 and 5 of R153. -/
def execInit (v : Variant) (s : State) : Host.Outcome State Fault Refusal :=
  if s.busy then .next (s.reject .busy)
  else .next (s.startMessage v)

/-- COMPRESS (R119): checks 4, 6 and 7 of R153. -/
def execCompress (s : State) : Host.Outcome State Fault Refusal :=
  if s.busy then .next (s.reject .busy)
  else if s.phase ≠ .ready then .next (s.reject .badPhase)
  else .next s.acceptBlock

/-- FINAL (R120): checks 4, 6, 8 and 9 of R153. -/
def execFinal (s : State) : Host.Outcome State Fault Refusal :=
  if s.busy then .next (s.reject .busy)
  else if s.phase ≠ .ready then .next (s.reject .badPhase)
  else if s.blkcnt = 0#64 then .next (s.reject .noBlock)
  else .next s.finishMessage

/-- COMPLETE, the engine agent's only step (R124): the compression of the latched block, the count and
BUSY, in one step. -/
def State.complete (s : State) : State :=
  { s with
    h := regsOfWorking (compress s.variant s.chainingValue s.latchedWords)
    blkcnt := s.blkcnt + 1#64
    busy := false }

end Sys2Proof.Machine
end

