-- ==== Sys2Proof/Machine/Dispatch.lean ====
section
/-! DEFINITION. One arm per command: the meaning that a CMD write of it has (43_commands.md R115). -/

namespace Sys2Proof.Machine

def exec (i : Instr) (s : State) : Host.Outcome State Fault Refusal :=
  match i with
  | .nop => Sys2Proof.Machine.execNop s
  | .init v => Sys2Proof.Machine.execInit v s
  | .compress => Sys2Proof.Machine.execCompress s
  | .final => Sys2Proof.Machine.execFinal s

end Sys2Proof.Machine
end

