-- ==== Sys2Proof/Machine/Bus.lean ====
section
/-! DEFINITION. The bus: the register map, reads and writes (20_memory.md R43-R49), a CMD write as a command (43_commands.md R115), accesses, host statements (30_encoding.md R69, R70) and the reset event (70_reset_and_hazards.md R170, R171). -/

namespace Sys2Proof.Machine

/-- What stands at a window offset (R43), or why no word does (R44, R45). -/
inductive Location where
  | id
  | cmd
  | status
  | blkcntLo
  | blkcntHi
  | blkWord (k : Fin 32)
  | digestWord (k : Fin 16)
  | unmapped
  | misaligned
  deriving DecidableEq, Repr

/-- The register map of R43, with the alignment rule of R44. -/
def locate (off : Offset) : Location :=
  let n := off.toNat
  if n % 4 ≠ 0 then .misaligned
  else if n = 0x000 then .id
  else if n = 0x004 then .cmd
  else if n = 0x008 then .status
  else if n = 0x00C then .blkcntLo
  else if n = 0x010 then .blkcntHi
  else if 0x100 ≤ n ∧ n < 0x180 then .blkWord (Fin.ofNat 32 ((n - 0x100) / 4))
  else if 0x200 ≤ n ∧ n < 0x240 then .digestWord (Fin.ofNat 16 ((n - 0x200) / 4))
  else .unmapped

/-- `MemRead(off, 4)` of R46; `none` is `raise BusError(off)` (R45). A read changes no state. -/
def memRead (s : State) (off : Offset) : Option Word32 :=
  match locate off with
  | .id => some Config.idValue
  | .cmd => none
  | .status => some s.statusWord
  | .blkcntLo => some (s.blkcnt.extractLsb' 0 32)
  | .blkcntHi => some (s.blkcnt.extractLsb' 32 32)
  | .blkWord k => some (s.blkWord k.val)
  | .digestWord k => some (s.digestWord k.val)
  | .unmapped => none
  | .misaligned => none

/-- A CMD write of `c` (R115, R153): the word is decoded; a word that is no command is rejected (checks 1
and 2), and a command makes its own remaining checks. -/
def commandWrite (s : State) (c : Word32) : Host.Outcome State Fault Refusal :=
  match decode c with
  | .command i => exec i s
  | .illegal e => .next (s.reject (ErrCode.ofDecodeError e))

/-- `MemWrite(off, 4, v)` of R47; the fault is `raise BusError(off)` (R45). -/
def memWrite (s : State) (off : Offset) (v : Word32) : Host.Outcome State Fault Refusal :=
  match locate off with
  | .cmd => commandWrite s v
  | .blkWord k => .next (s.storeBlkWord k.val v)
  | .id => .fault (.busError off)
  | .status => .fault (.busError off)
  | .blkcntLo => .fault (.busError off)
  | .blkcntHi => .fault (.busError off)
  | .digestWord _ => .fault (.busError off)
  | .unmapped => .fault (.busError off)
  | .misaligned => .fault (.busError off)

/-- One transaction that takes effect on the state and is answered on the port (R40, R41). A rejected
command is acknowledged like an accepted one (R115). -/
def transact (s : State) (a : Access) : Host.Outcome State Fault Refusal :=
  match a with
  | .read off =>
    match memRead s off with
    | some d => .next (s.answer (readAck d))
    | none => .fault (.busError off)
  | .write off v => memWrite (s.answer writeAck) off v

/-- A transaction that belongs to no host program: a bus error is the `err` answer, it changes no state
of the engine, and the engine goes on (R150, R152, R158). -/
def bareAccess (s : State) (a : Access) : Host.Outcome State Fault Refusal :=
  match transact s a with
  | .next t => .next t
  | .fault (.busError _) => .next (s.answer (errReply a))
  | .refused r => .refused r

/-- RD: one read, whose value is the statement's result (R69). -/
def readStmt (s : State) (off : Offset) : Host.Outcome State Fault Refusal :=
  match memRead s off with
  | some d => .next ((s.answer (readAck d)).recordRead d)
  | none => .fault (.busError off)

/-- One pass of POLL (R70), in state `s` whose next input is this POLL: a read, after which the program
goes on if the condition holds and makes the same read again otherwise. The POLL stays in front, so what
is listed behind it, a reset included, comes after its condition holds; a reset between two of its reads
is listed without the POLL, behind those reads as accesses (DESIGN CHOICE, log entry 18). -/
def pollStmt (s : State) (off : Offset) (mask value : Word32) (rest : List Input) :
    Host.Outcome State Fault Refusal :=
  match memRead s off with
  | some d =>
    if d &&& mask = value then .next ((s.takeTurn rest).answer (readAck d))
    else .next ((s.takeTurn s.inputs).answer (readAck d))
  | none => .fault (.busError off)

/-- Reset (R170, R171): every element of the engine takes its reset value, a compression in flight is
abandoned, and a transaction in progress has no effect. Whether and how that transaction is answered is
a free value (U9; log entry 7). What the environment does next is left as it is (log entry 9). -/
def State.applyReset (s : State) (cut : Option Access) (rest : List Input) : State :=
  { State.reset with
    inputs := rest
    reads := s.reads
    reply := match cut with
      | none => none
      | some _ => Config.cutReply s.engine s.draws
    draws := match cut with
      | none => s.draws
      | some _ => s.draws + 1
    engine := s.engine }

/-- The environment's turn: the next input takes effect; with none, nothing happens (R166; log
entry 4). -/
def environmentTurn (s : State) : Host.Outcome State Fault Refusal :=
  match s.inputs with
  | [] => .next (s.takeTurn [])
  | .stmt (.wr off v) :: rest => transact (s.takeTurn rest) (.write off v)
  | .stmt (.rd off) :: rest => readStmt (s.takeTurn rest) off
  | .stmt (.poll off mask value) :: rest => pollStmt s off mask value rest
  | .access a :: rest => bareAccess (s.takeTurn rest) a
  | .reset cut :: rest => .next (s.applyReset cut rest)

/-- The next input is a reset. -/
def State.resetNext (s : State) : Bool :=
  match s.inputs with
  | .reset _ :: _ => true
  | _ => false

/-- It is the engine's turn: a compression is in flight (R124), the turns that its free latency gives the
environment are over (R125), and no reset happens now, since reset wins over COMPLETE (R170). -/
def State.engineTurn (s : State) : Bool := s.busy && s.latencyLeft == 0 && !s.resetNext

end Sys2Proof.Machine
end

