-- ==== Sys2Proof/Machine/Step.lean ====
section
/-! DEFINITION. One step of the machine: the engine's COMPLETE step or one turn of the environment (00_scope.md R11, 20_memory.md R41, 60_exceptions.md R154). -/

namespace Sys2Proof.Machine

/-- One step: COMPLETE when it is the engine's turn, otherwise what the environment does next. No two
events are ever simultaneous (R154). -/
def step (s : State) : Host.Outcome State Fault Refusal :=
  if s.engineTurn then .next s.complete else environmentTurn s

/-- `s` with the command word `w` as the host's next write to CMD, the only way a command reaches the
engine (R60), and with the next turn given to the host (log entry 2). -/
def State.withFetchWord (s : State) (nbits w : Nat) : State :=
  { s with
    inputs := .stmt (.wr Config.cmdOffset (BitVec.ofNat 32 (w % 2 ^ nbits))) :: s.inputs
    latencyLeft := if s.busy && s.latencyLeft == 0 then 1 else s.latencyLeft }

end Sys2Proof.Machine
end

