-- ==== Sys2Proof/Machine/HostAsm.lean ====
section
/-! DEFINITION. The host assembly: what each statement expands to (30_encoding.md R69-R74), and the text of a statement (R69). Host side: the engine never sees it. -/

namespace Sys2Proof.Machine

/-- The offset of DIGEST in the window (R43). -/
def digestBase : Nat := 0x200

/-- The four bytes `b[4k..4k+3]` as a bus word, `pack_256(b, 4k)` (R48, R73). -/
def bytesWord (b : List Byte) (k : Nat) : Word32 := packBytes 32 ((b.drop (4 * k)).take 4)

/-- `WR CMD, c`. -/
def wrCmd (c : Word32) : Stmt := .wr Config.cmdOffset c

/-- `WAIT`: poll STATUS until BUSY = 0 (R72). -/
def waitStmt : Stmt := .poll Config.statusOffset 0x00000004 0x00000000

/-- `LDBLK b`: the words of `b`, in increasing `k` (R73). -/
def ldblkStmts (b : List Byte) : List Stmt :=
  (List.range (b.length / 4)).map fun k => .wr (BitVec.ofNat 10 (Config.blkBase + 4 * k)) (bytesWord b k)

/-- `RDDIG`: one read a digest word, 8 in SHA-256 and 16 in SHA-512 (R74). -/
def rddigStmts (v : Variant) : List Stmt :=
  (List.range (v.digestBytes / 4)).map fun k => .rd (BitVec.ofNat 10 (digestBase + 4 * k))

/-- What a statement of the host assembly expands to (R69-R74); `none` for an ill-formed LDBLK. -/
def Asm.expand (a : Asm) : Option (List Stmt) :=
  if a.wf then
    match a with
    | .wr off v => some [.wr off v]
    | .rd off => some [.rd off]
    | .poll off mask value => some [.poll off mask value]
    | .nop => some [wrCmd 0x00000000]
    | .init256 => some [wrCmd 0x00000001]
    | .init512 => some [wrCmd 0x00000101]
    | .compress => some [wrCmd 0x00000002]
    | .final => some [wrCmd 0x00000003]
    | .cmdRaw v => some [wrCmd v]
    | .wait => some [waitStmt]
    | .ldblk b => some (ldblkStmts b)
    | .rddig v => some (rddigStmts v)
  else none

/-- A program as the transactions it issues, in order (R69: statements run in order). -/
def expandProgram : List Asm → Option (List Stmt)
  | [] => some []
  | a :: rest =>
    match a.expand, expandProgram rest with
    | some x, some xs => some (x ++ xs)
    | _, _ => none

/-! The text of a statement (R69). -/

/-- One digit of a number in base `base`. -/
def digitValue (base : Nat) (c : Char) : Option Nat :=
  let d :=
    if '0' ≤ c ∧ c ≤ '9' then c.toNat - '0'.toNat
    else if 'a' ≤ c ∧ c ≤ 'f' then c.toNat - 'a'.toNat + 10
    else if 'A' ≤ c ∧ c ≤ 'F' then c.toNat - 'A'.toNat + 10
    else 16
  if d < base then some d else none

/-- The digits of a number, most significant first. -/
def digitsValue (base : Nat) (acc : Nat) : List Char → Option Nat
  | [] => some acc
  | c :: cs =>
    match digitValue base c with
    | some d => digitsValue base (acc * base + d) cs
    | none => none

/-- A number: hexadecimal with `0x`, or decimal (R69). -/
def parseNumber : List Char → Option Nat
  | '0' :: 'x' :: c :: cs => digitsValue 16 0 (c :: cs)
  | c :: cs => digitsValue 10 0 (c :: cs)
  | [] => none

/-- A 32-bit value. -/
def parseValue (t : List Char) : Option Word32 :=
  match parseNumber t with
  | some n => if n < 2 ^ 32 then some (BitVec.ofNat 32 n) else none
  | none => none

/-- A number added to a base offset, inside the window. -/
def parseOffsetFrom (base : Nat) (t : List Char) : Option Offset :=
  match parseNumber t with
  | some n => if base + n < Config.windowBytes then some (BitVec.ofNat 10 (base + n)) else none
  | none => none

/-- An offset: a register name of R43, or a number (R69). R69 names only `BLK+4k` and `DIGEST+4k`; the
model reads `BLK+n` and `DIGEST+n` for any `n` that stays inside the window as the offset base + `n`, so
that a wrong `n` is an access that may err (DESIGN CHOICE, log entry 19). -/
def parseOffset (t : List Char) : Option Offset :=
  if t = "ID".toList then some 0x000
  else if t = "CMD".toList then some 0x004
  else if t = "STATUS".toList then some 0x008
  else if t = "BLKCNT_LO".toList then some 0x00C
  else if t = "BLKCNT_HI".toList then some 0x010
  else
    match t with
    | 'B' :: 'L' :: 'K' :: '+' :: n => parseOffsetFrom Config.blkBase n
    | 'D' :: 'I' :: 'G' :: 'E' :: 'S' :: 'T' :: '+' :: n => parseOffsetFrom digestBase n
    | _ => parseOffsetFrom 0 t

/-- Add a finished token in front of the others. -/
def pushToken (cur : List Char) (done : List (List Char)) : List (List Char) :=
  if cur = [] then done else cur.reverse :: done

/-- The tokens of a line: words, and `,` and `=` as tokens of their own; `;` starts a comment (R69). -/
def tokens (cur : List Char) (done : List (List Char)) : List Char → List (List Char)
  | [] => (pushToken cur done).reverse
  | c :: cs =>
    if c = ';' then (pushToken cur done).reverse
    else if c = ' ' ∨ c = '\t' then tokens [] (pushToken cur done) cs
    else if c = ',' ∨ c = '=' then tokens [] ([c] :: pushToken cur done) cs
    else tokens (c :: cur) done cs

/-- The statement that a line's tokens spell; `v` is the variant in force, which fixes RDDIG's reads
(R74). LDBLK has no spelling here: its operand is a byte sequence, for which R73 gives no text (log
entry 12). A value after `RD off =` states what the rules give and asks for nothing (R69). -/
def parseTokens (v : Variant) (ts : List (List Char)) : Option Asm :=
  match ts with
  | [m] =>
    if m = "NOP".toList then some .nop
    else if m = "INIT.256".toList then some .init256
    else if m = "INIT.512".toList then some .init512
    else if m = "COMPRESS".toList then some .compress
    else if m = "FINAL".toList then some .final
    else if m = "WAIT".toList then some .wait
    else if m = "RDDIG".toList then some (.rddig v)
    else none
  | [m, x] =>
    if m = "RD".toList then (parseOffset x).map .rd
    else if m = "CMD.RAW".toList then (parseValue x).map .cmdRaw
    else none
  | [m, x, sep, y] =>
    if m = "WR".toList ∧ sep = [','] then
      (parseOffset x).bind fun off => (parseValue y).map fun d => .wr off d
    else if m = "RD".toList ∧ sep = ['='] then
      (parseOffset x).bind fun off => (parseValue y).map fun _ => .rd off
    else none
  | [m, x, sep1, y, sep2, z] =>
    if m = "POLL".toList ∧ sep1 = [','] ∧ sep2 = [','] then
      (parseOffset x).bind fun off => (parseValue y).bind fun mask =>
        (parseValue z).map fun value => .poll off mask value
    else none
  | _ => none

/-- The variant that a command word leaves in force, as far as a program's text shows it: INIT's (R63). -/
def variantAfterWord (v : Variant) (c : Word32) : Variant :=
  match decode c with
  | .command (.init v') => v'
  | .command .nop => v
  | .command .compress => v
  | .command .final => v
  | .illegal _ => v

/-- The variant in force after a statement (log entry 12). -/
def Asm.variantAfter (v : Variant) : Asm → Variant
  | .init256 => .sha256
  | .init512 => .sha512
  | .cmdRaw c => variantAfterWord v c
  | .wr off c => if off = Config.cmdOffset then variantAfterWord v c else v
  | .rd _ => v
  | .poll _ _ _ => v
  | .nop => v
  | .compress => v
  | .final => v
  | .wait => v
  | .ldblk _ => v
  | .rddig _ => v

/-- The text of a program, one statement a line (R69); `none` if a line is no statement. -/
def parseProgram (v : Variant) : List (List Char) → Option (List Asm)
  | [] => some []
  | line :: rest =>
    match tokens [] [] line with
    | [] => parseProgram v rest
    | t :: ts =>
      match parseTokens v (t :: ts) with
      | some a => (parseProgram (a.variantAfter v) rest).map (a :: ·)
      | none => none

end Sys2Proof.Machine
end

