-- ==== Sys2Proof/Machine/HostRef.lean ====
section
/-! DEFINITION. The host-side reference functions: padding, the hex rendering, the digest and the protocol that computes it with the engine (44_host_reference.md R135-R143). They bind the host, not the engine. -/

namespace Sys2Proof.Machine

/-- `new_size` for a message of `n` bytes: the least size of at least `n + 1` that leaves room for the
length field at the end of a block (R137). -/
def paddedBody (v : Variant) (n : Nat) : Nat :=
  let room := v.blockBytes - v.lenBytes
  n + 1 + (room + v.blockBytes - (n + 1) % v.blockBytes) % v.blockBytes

/-- The length field: LEN_BYTES bytes, big-endian (R139). -/
def lengthField (v : Variant) (bits : Nat) : List Byte :=
  (List.range v.lenBytes).map fun i => BitVec.ofNat 8 (bits >>> (8 * (v.lenBytes - 1 - i)))

/-- `pad_v(M)` (R137, R138). -/
def pad (v : Variant) (m : List Byte) : List Byte :=
  m ++ [0x80] ++ List.replicate (paddedBody v m.length - (m.length + 1)) 0
    ++ lengthField v (8 * m.length)

/-- The blocks of a padded buffer, in order (R142). -/
def blocksOf (v : Variant) (p : List Byte) : List (List Byte) :=
  (List.range (p.length / v.blockBytes)).map fun k => (p.drop (k * v.blockBytes)).take v.blockBytes

/-- `words(B)[t] = pack_v(B, ws * t)` of R122. -/
def wordsOf (v : Variant) (b : List Byte) : List (BitVec v.wordBits) :=
  (List.range 16).map fun t => (pack v b (v.wordBytes * t)).getD 0

/-- The digest bytes of a message (R143, R81). -/
def digestBytes (v : Variant) (m : List Byte) : List Byte :=
  digestBytesOf v (chain v (ivWorking v) ((blocksOf v (pad v m)).map (wordsOf v)))

/-- One lowercase hex digit (R141). -/
def nib (n : Nat) : Char := if n < 10 then Char.ofNat ('0'.toNat + n) else Char.ofNat ('a'.toNat + (n - 10))

/-- `hex(D)`: two lowercase digits a byte, the high nibble first (R141). -/
def hex (d : List Byte) : List Char :=
  d.flatMap fun b => [nib (b.toNat / 16), nib (b.toNat % 16)]

/-- `digest(M, v)` (R135, R143); a message outside the domain has none (R136, U13). -/
def digest (v : Variant) (m : List Byte) : Option String :=
  if messageLengthInDomain m.length then some (String.ofList (hex (digestBytes v m))) else none

/-- The INIT statement of a variant (R71). -/
def initAsm : Variant → Asm
  | .sha256 => .init256
  | .sha512 => .init512

/-- The protocol of R142 for a message, in the host assembly; `none` outside the domain. -/
def hostProtocol (v : Variant) (m : List Byte) : Option (List Asm) :=
  if messageLengthInDomain m.length then
    some ([.wait, initAsm v]
      ++ (blocksOf v (pad v m)).flatMap (fun b => [.ldblk b, .compress, .wait])
      ++ [.final, .rddig v])
  else none

/-- The blocks of R142's loop as base statements, for a host that loads ahead: the first `loaded` words of
the first block are in BLK already, and `ahead` says, block by block, how many words of the next block the
host writes before the WAIT that follows a COMPRESS (a missing entry is 0, the plain listing). -/
def feedBlocks (loaded : Nat) (ahead : List Nat) : List (List Byte) → List Stmt
  | [] => []
  | b :: rest =>
    (ldblkStmts b).drop loaded ++ [wrCmd (encode .compress)]
      ++ (ldblkStmts (rest.headD [])).take (ahead.headD 0) ++ [waitStmt]
      ++ feedBlocks (ahead.headD 0) ahead.tail rest

/-- The protocol of R142 as base statements, for a host that loads ahead. -/
def protocolStmts (v : Variant) (m : List Byte) (ahead : List Nat) : List Stmt :=
  [waitStmt, wrCmd (encode (.init v))] ++ feedBlocks 0 ahead (blocksOf v (pad v m))
    ++ [wrCmd (encode .final)] ++ rddigStmts v

end Sys2Proof.Machine
end

