-- ==== Sys2Proof/Machine/System.lean ====
section
/-! DEFINITION. Several engines in one system (60_exceptions.md R163): each has its own window and state, and a step of one reads and writes no other. -/

namespace Sys2Proof.Machine

/-- The states of the engines of a system, by instance (R163). -/
abbrev System := List State

/-- Every engine of the system right after reset (P3), each with its own number for the free values it
draws (log entry 13). -/
def System.reset : System :=
  (List.range Config.numInstances).map fun i => { State.reset with engine := i }

/-- A step of the system: instance `i` steps (R163); `none` if there is no such instance. A bus error of a
program's statement on instance `i` is the outcome of that step of the system; which instance it was is `i`,
and the fault names the offset alone (DESIGN CHOICE, log entry 21). -/
def System.stepAt (sys : System) (i : Nat) : Option (Host.Outcome System Fault Refusal) :=
  match sys[i]? with
  | none => none
  | some s =>
    match step s with
    | .next t => some (.next (sys.set i t))
    | .fault r => some (.fault r)
    | .refused r => some (.refused r)

/-- The host address of a window offset of instance `i` (R42, P2). -/
def hostAddress (i : Nat) (off : Offset) : Nat := Config.engineBase i + off.toNat

end Sys2Proof.Machine
end

