-- ==== Sys2Proof/Safety.lean ====
section
/-! DEFINITION. What a safe run is, in the terms the claims use: which accesses and commands are admitted (20_memory.md R43-R45, 43_commands.md R126), the invariants of 10_state.md R36, and the run of one message (43_commands.md R122). -/

namespace Sys2Proof.Machine

/-- R43: the offsets whose word may be read, at a multiple of 4. -/
def readAdmitted (off : Offset) : Bool :=
  let n := off.toNat
  decide (n % 4 = 0 ∧ (n = 0x000 ∨ n = 0x008 ∨ n = 0x00C ∨ n = 0x010
    ∨ (0x100 ≤ n ∧ n ≤ 0x17F) ∨ (0x200 ≤ n ∧ n ≤ 0x23F)))

/-- R43: the offsets whose word may be written, at a multiple of 4. -/
def writeAdmitted (off : Offset) : Bool :=
  let n := off.toNat
  decide (n % 4 = 0 ∧ (n = 0x004 ∨ (0x100 ≤ n ∧ n ≤ 0x17F)))

/-- The bus admits the access of the statement, so the statement cannot end in BUSERR (R45, R69). -/
def Stmt.admitted : Stmt → Bool
  | .wr off _ => writeAdmitted off
  | .rd off => readAdmitted off
  | .poll off _ _ => readAdmitted off

/-- No bus error can stop this input: its statement is admitted. A transaction outside a program may err freely (R158). -/
def Input.admitted : Input → Bool
  | .stmt st => st.admitted
  | .access _ => true
  | .reset _ => true

/-- The acceptance table of R126, one row a command: what a decoded command needs to be accepted. -/
def accepts (s : State) : Instr → Bool
  | .nop => true
  | .init _ => !s.busy
  | .compress => !s.busy && s.phase == .ready
  | .final => !s.busy && s.phase == .ready && s.blkcnt != 0#64

/-- The command that a write of `c` to `off` carries: a CMD write whose word decodes to one. -/
def writtenCommand (off : Offset) (c : Word32) : Option Instr :=
  if off = Config.cmdOffset then
    match decode c with
    | .command i => some i
    | .illegal _ => none
  else none

/-- The command that the next step takes from a CMD write, if it takes one. -/
def State.commandNext (s : State) : Option Instr :=
  if s.engineTurn then none
  else
    match s.inputs with
    | .stmt (.wr off c) :: _ => writtenCommand off c
    | .access (.write off c) :: _ => writtenCommand off c
    | _ => none

/-- The command that the next step accepts, if it accepts one (R126). -/
def State.acceptedNext (s : State) : Option Instr :=
  match s.commandNext with
  | some i => if accepts s i then some i else none
  | none => none

/-- The next step accepts an INIT. -/
def State.initNext (s : State) : Bool :=
  match s.acceptedNext with
  | some (.init _) => true
  | _ => false

/-- The state after the writes of a list of WR statements, one after the other and with nothing between
them; `none` if one is not a write or is not admitted. -/
def writeAll : State → List Stmt → Option State
  | s, [] => some s
  | s, .wr off v :: rest =>
    match memWrite s off v with
    | .next t => writeAll t rest
    | .fault _ => none
    | .refused _ => none
  | _, .rd _ :: _ => none
  | _, .poll _ _ _ :: _ => none

/-- The code that a CMD write of `c` is rejected with, `none` if it is accepted (R151, R153). -/
def rejectionCode (s : State) (c : Word32) : Option ErrCode :=
  match decode c with
  | .illegal .badOpcode => some .badOpcode
  | .illegal .reservedBits => some .reservedBits
  | .command i =>
    if accepts s i then none
    else if s.busy then some .busy
    else if s.phase ≠ .ready then some .badPhase
    else some .noBlock

/-- A read beside the protocol: of STATUS, at any time (R142), or of ID or BLKCNT, as in programs P1 and
P3. No read changes the engine (R46). A POLL beside the listing, an extra WAIT included, is no side read,
although its reads are reads of STATUS: it may never end (R70) (DESIGN CHOICE, log entry 20). -/
def Stmt.sideRead : Stmt → Bool
  | .wr _ _ => false
  | .rd off => readAdmitted off && decide (off.toNat < Config.blkBase)
  | .poll _ _ _ => false

/-- The host follows the protocol of R142 for `m`: a message in the domain, the protocol's statements in
their order, the next block loaded ahead as far as the host likes, and side reads anywhere (log entry 20). -/
def FollowsProtocol (v : Variant) (m : List Byte) (stmts : List Stmt) : Prop :=
  messageLengthInDomain m.length = true ∧
    ∃ ahead, (stmts.filter fun st => !st.sideRead) = protocolStmts v m ahead

/-- The statements that have a result (R69). -/
def resultStmts (stmts : List Stmt) : List Stmt :=
  stmts.filter fun
    | .wr _ _ => false
    | .rd _ => true
    | .poll _ _ _ => false

/-- Of the results `ws` of the RD statements of `stmts`, those that are no side reads: what RDDIG read. -/
def digestResults (stmts : List Stmt) (ws : List Word32) : List Word32 :=
  (((resultStmts stmts).zip ws).filter fun x => !x.1.sideRead).map Prod.snd

/-- The environment's side and the model's own counters are as they were: what waits, the results of
reads, the port's last answer, the turn counter and the count of draws. -/
structure SameHostSide (s t : State) : Prop where
  inputs : t.inputs = s.inputs
  reads : t.reads = s.reads
  reply : t.reply = s.reply
  latencyLeft : t.latencyLeft = s.latencyLeft
  draws : t.draws = s.draws

/-- The bits 63:32 of a register, which SHA-256 keeps at 0 (R31). -/
def upperHalf (x : Word64) : Word32 := x.extractLsb' 32 32

/-- The invariants of R36, with the canonical form of BLK and the model's own turn counter (log
entries 1 and 5). Item 4 of R36 (PHASE = 3) is part of the type of PHASE. -/
structure Inv (s : State) : Prop where
  /-- R36 item 1. -/
  busy_is_ready : s.busy = true → s.phase = .ready
  /-- R36 item 2. -/
  idle_is_empty : s.phase = .idle → s.blkcnt = 0#64 ∧ s.busy = false
    ∧ (s.err = .none ∨ s.err = .badOpcode ∨ s.err = .reservedBits ∨ s.err = .badPhase)
  /-- R36 item 3. -/
  done_has_block : s.phase = .done → s.busy = false ∧ s.blkcnt ≠ 0#64
  /-- R36 item 5, chaining registers. -/
  upper_h_zero : s.variant = .sha256 → ∀ x ∈ s.h, upperHalf x = 0#32
  /-- R36 item 5, latched words: only while BUSY = 1. -/
  upper_l_zero : s.variant = .sha256 → s.busy = true → ∀ x ∈ s.l, upperHalf x = 0#32
  /-- BLK is canonical and lists only its own offsets. -/
  blk_canonical : s.blk.wf = true ∧ s.blk.onlyBlk = true
  /-- No turns are counted when nothing is in flight. -/
  idle_counts_no_turns : s.busy = false → s.latencyLeft = 0

/-- H chains the accepted blocks `bs` of a message of variant `v` (R122): while BUSY = 0 all of them, and
while BUSY = 1 all but the last, which L holds (R119). -/
structure Chained (v : Variant) (bs : List (List (BitVec v.wordBits))) (s : State) : Prop where
  variant : s.variant = v
  busy_is_ready : s.busy = true → s.phase = .ready
  between : s.busy = false →
    s.h = regsOfWorking (chain v (ivWorking v) bs) ∧ s.blkcnt = BitVec.ofNat 64 bs.length
  inFlight : s.busy = true → ∃ done last, bs = done ++ [last] ∧
    s.h = regsOfWorking (chain v (ivWorking v) done) ∧ s.blkcnt = BitVec.ofNat 64 done.length ∧
    s.l.toList = last.map zext64

/-- A run within one message of variant `v`: any steps at all from the state in which the message has
just started, except a reset or another accepted INIT; the list holds the message words of BLK at the
acceptance of each COMPRESS, in order (R122). An accepted COMPRESS is a step in which BUSY rises. -/
inductive MessageRun (v : Variant) (start : State) : List (List (BitVec v.wordBits)) → State → Prop where
  | begin : MessageRun v start [] start
  | feed {bs : List (List (BitVec v.wordBits))} {s t : State} :
      MessageRun v start bs s → step s = .next t → s.acceptedNext = some .compress →
      MessageRun v start (bs ++ [s.messageWords v]) t
  | other {bs : List (List (BitVec v.wordBits))} {s t : State} :
      MessageRun v start bs s → step s = .next t → s.resetNext = false → s.initNext = false →
      s.acceptedNext ≠ some .compress → MessageRun v start bs t

end Sys2Proof.Machine
end

