-- ==== Sys2Proof/Certificates/Slice0/Obligations.lean ====
section
/-! DEFINITION. The statements for the provers, one for each rule or group of rules of the spec. Statements about every state hold in every state; where reachability matters, a premise names the invariant of 10_state.md R36. -/

open Sys2Proof Sys2Proof.Machine

/-! Encoding. -/

/-- Words written out from 30_encoding.md R65 and from the rejection vectors V-X4 to V-X8. -/
def Obligations.SpecCommandWordsDecode : Prop :=
  decode 0x00000000#32 = .command .nop ∧
  decode 0x00000001#32 = .command (.init .sha256) ∧
  decode 0x00000101#32 = .command (.init .sha512) ∧
  decode 0x00000002#32 = .command .compress ∧
  decode 0x00000003#32 = .command .final ∧
  decode 0x00000102#32 = .illegal .reservedBits ∧
  decode 0x00000007#32 = .illegal .badOpcode ∧
  decode 0xFFFFFFFF#32 = .illegal .badOpcode ∧
  decode 0x00000010#32 = .illegal .reservedBits ∧
  decode 0x00000201#32 = .illegal .reservedBits

/-- R65, whole: the pseudocode for every word, the match-and-mask rows, and the five accepted words. -/
def Obligations.DecodeFollowsTheDecodingRule : Prop :=
  ∀ c : Word32,
    decode c =
      (if 4 ≤ c.toNat % 16 then .illegal .badOpcode
       else if c.toNat % 16 = 1 ∧ c &&& 0xFFFFFEF0#32 ≠ 0#32 then .illegal .reservedBits
       else if c.toNat % 16 ≠ 1 ∧ c &&& 0xFFFFFFF0#32 ≠ 0#32 then .illegal .reservedBits
       else if c.toNat % 16 = 0 then .command .nop
       else if c.toNat % 16 = 1 then .command (.init (if c.getLsbD 8 then .sha512 else .sha256))
       else if c.toNat % 16 = 2 then .command .compress
       else .command .final) ∧
    (decode c = .command .nop ↔ c &&& 0xFFFFFFFF#32 = 0x00000000#32) ∧
    (∀ v, decode c = .command (.init v) ↔
      (c &&& 0xFFFFFEFF#32 = 0x00000001#32 ∧ v = if c.getLsbD 8 then .sha512 else .sha256)) ∧
    (decode c = .command .compress ↔ c &&& 0xFFFFFFFF#32 = 0x00000002#32) ∧
    (decode c = .command .final ↔ c &&& 0xFFFFFFFF#32 = 0x00000003#32) ∧
    ((∃ i, decode c = .command i) ↔
      c = 0x00000000#32 ∨ c = 0x00000001#32 ∨ c = 0x00000101#32 ∨ c = 0x00000002#32 ∨ c = 0x00000003#32)

/-- Decode and encode agree in both directions: no bit of a command word is dropped (R61-R65). -/
def Obligations.EncodeAndDecodeAgree : Prop :=
  (∀ i : Instr, i.wf = true → decode (encode i) = .command i) ∧
  (∀ (c : Word32) (i : Instr), decode c = .command i → encode i = c)

/-! The commands. -/

/-- R117: NOP is accepted everywhere and changes nothing; a NOP spelling with any other bit set is
RESERVED_BITS. -/
def Obligations.NopChangesNothing : Prop :=
  ∀ s : State, exec .nop s = .next s ∧
    ∀ c : Word32, c.toNat % 16 = 0 →
      (c = 0x00000000#32 → commandWrite s c = .next s) ∧
      (c ≠ 0x00000000#32 → commandWrite s c = .next { s with err := .reservedBits })

/-- R118: what an accepted INIT writes, that it leaves BLK, L and everything else, that twice is once,
that it hides the digest, and that it is rejected while BUSY = 1. -/
def Obligations.InitStartsAMessage : Prop :=
  ∀ (v : Variant) (s : State),
    (s.busy = false → ∃ t, exec (.init v) s = .next t ∧
      t.variant = v ∧
      (∀ j : Fin 8, t.h[j] = ((initialVector v).getD j.val 0).setWidth 64) ∧
      t.blkcnt = 0#64 ∧ t.phase = .ready ∧ t.err = .none ∧ t.busy = false ∧
      t.l = s.l ∧ (∀ a, t.blk.read a = s.blk.read a) ∧ SameHostSide s t ∧
      t.digestView = List.replicate 64 0#8 ∧
      exec (.init v) t = .next t) ∧
    (s.busy = true → exec (.init v) s = .next { s with err := .busy }) ∧
    encode (.init .sha256) = 0x00000001#32 ∧ encode (.init .sha512) = 0x00000101#32

/-- R119 and R80: an accepted COMPRESS latches the sixteen packed words of BLK and sets BUSY, and nothing
else of the engine changes; a later write to BLK leaves what was latched; its rejections and its word. (When the compression completes is the model's own turn
counter, which this statement leaves open; log entry 1.) -/
def Obligations.CompressLatchesTheBlock : Prop :=
  ∀ s : State,
    (s.busy = false → s.phase = .ready → ∃ t, exec .compress s = .next t ∧
      (∀ k : Fin 16, ∃ x, pack s.variant s.blkBytes (s.variant.wordBytes * k.val) = some x ∧
        t.l[k] = x.setWidth 64) ∧
      t.busy = true ∧ t.phase = s.phase ∧ t.variant = s.variant ∧ t.err = s.err ∧
      t.blkcnt = s.blkcnt ∧ t.h = s.h ∧ (∀ a, t.blk.read a = s.blk.read a) ∧
      t.inputs = s.inputs ∧ t.reads = s.reads ∧ t.reply = s.reply ∧
      (∀ off w u, off ≠ 0x004#10 → memWrite t off w = .next u → u.l = t.l)) ∧
    (s.busy = true → exec .compress s = .next { s with err := .busy }) ∧
    (s.busy = false → s.phase ≠ .ready → exec .compress s = .next { s with err := .badPhase }) ∧
    encode .compress = 0x00000002#32

/-- R120: an accepted FINAL writes PHASE and nothing else, the digest view becomes the digest of H, and
the rejections in their order. -/
def Obligations.FinalEndsTheMessage : Prop :=
  ∀ s : State,
    (s.busy = false → s.phase = .ready → s.blkcnt ≠ 0#64 → ∃ t, exec .final s = .next t ∧
      t.phase = .done ∧ t.busy = s.busy ∧ t.variant = s.variant ∧ t.err = s.err ∧
      t.blkcnt = s.blkcnt ∧ t.h = s.h ∧ t.l = s.l ∧ (∀ a, t.blk.read a = s.blk.read a) ∧
      SameHostSide s t ∧
      t.digestView = digestBytesOf s.variant s.chainingValue
        ++ List.replicate (64 - s.variant.digestBytes) 0#8) ∧
    (s.busy = true → exec .final s = .next { s with err := .busy }) ∧
    (s.busy = false → s.phase ≠ .ready → exec .final s = .next { s with err := .badPhase }) ∧
    (s.busy = false → s.phase = .ready → s.blkcnt = 0#64 → exec .final s = .next { s with err := .noBlock }) ∧
    encode .final = 0x00000003#32

/-- R153: the outcome of every CMD write, by the nine checks in their order. -/
def Obligations.CommandChecksInOrder : Prop :=
  ∀ (s : State) (c : Word32),
    commandWrite s c = .next
      (if 4 ≤ c.toNat % 16 then { s with err := .badOpcode }
       else if c &&& (if c.toNat % 16 = 1 then 0xFFFFFEF0#32 else 0xFFFFFFF0#32) ≠ 0#32 then
         { s with err := .reservedBits }
       else if c.toNat % 16 = 0 then s
       else if s.busy = true then { s with err := .busy }
       else if c.toNat % 16 = 1 then s.startMessage (if c.getLsbD 8 then .sha512 else .sha256)
       else if s.phase ≠ .ready then { s with err := .badPhase }
       else if c.toNat % 16 = 2 then s.acceptBlock
       else if s.blkcnt = 0#64 then { s with err := .noBlock }
       else s.finishMessage)

/-- R126: the five rows of the acceptance table. -/
def Obligations.AcceptanceTable : Prop :=
  ∀ (s : State) (v : Variant), accepts s .nop = true ∧ exec .nop s = .next s ∧
    (s.busy = false → accepts s (.init v) = true ∧ exec (.init v) s = .next (s.startMessage v)) ∧
    ((s.phase = .idle ∨ s.phase = .done) → s.busy = false →
      accepts s .compress = false ∧ exec .compress s = .next { s with err := .badPhase } ∧
      accepts s .final = false ∧ exec .final s = .next { s with err := .badPhase }) ∧
    (s.phase = .ready → s.busy = false →
      accepts s .compress = true ∧ exec .compress s = .next s.acceptBlock) ∧
    (s.phase = .ready → s.busy = false → s.blkcnt = 0#64 →
      accepts s .final = false ∧ exec .final s = .next { s with err := .noBlock }) ∧
    (s.phase = .ready → s.busy = false → s.blkcnt ≠ 0#64 →
      accepts s .final = true ∧ exec .final s = .next s.finishMessage) ∧
    (s.busy = true → ∀ i, i ≠ .nop →
      accepts s i = false ∧ exec i s = .next { s with err := .busy })

/-! The engine's step, its latency, and the order of events. -/

/-- R124: the COMPLETE step, enabled only while BUSY = 1. When it comes is the model's free latency (log
entry 1). -/
def Obligations.CompletePerformsTheCompression : Prop :=
  ∀ s : State, s.engineTurn = true →
    s.busy = true ∧ ∃ t, step s = .next t ∧
      (let w := s.variant.wordBits
       let hn := compress s.variant
         ⟨s.h[0].setWidth w, s.h[1].setWidth w, s.h[2].setWidth w, s.h[3].setWidth w,
          s.h[4].setWidth w, s.h[5].setWidth w, s.h[6].setWidth w, s.h[7].setWidth w⟩
         (s.l.toList.map fun x => x.setWidth w)
       t.h = #v[hn.a.setWidth 64, hn.b.setWidth 64, hn.c.setWidth 64, hn.d.setWidth 64,
         hn.e.setWidth 64, hn.f.setWidth 64, hn.g.setWidth 64, hn.h.setWidth 64]) ∧
      t.blkcnt.toNat = (s.blkcnt.toNat + 1) % 2 ^ 64 ∧ t.busy = false ∧
      t.phase = s.phase ∧ t.variant = s.variant ∧ t.err = s.err ∧ t.l = s.l ∧
      (∀ a, t.blk.read a = s.blk.read a) ∧ SameHostSide s t

/-- R125: a compression in flight completes after finitely many turns, whatever admitted statements and
accesses the host issues meanwhile, and all of them see BUSY = 1. The number of turns is the model's
counter, loaded from a free value (log entry 1). -/
def Obligations.CompressionAlwaysCompletes : Prop :=
  ∀ s : State, s.busy = true →
    (∀ i ∈ s.inputs, i.admitted = true ∧ ∀ cut, i ≠ .reset cut) →
    (∀ j, j ≤ s.latencyLeft → ∃ u, Sys2Proof.core.run j s = .next u ∧ State.busy u = true) ∧
    ∃ t, Sys2Proof.core.run (s.latencyLeft + 1) s = .next t ∧ State.busy t = false ∧
      State.blkcnt t = s.blkcnt + 1#64

/-- R154: a command next to a COMPLETE step may come before it, and is rejected with BUSY, or after it.
Which of the two is the model's free latency (log entry 1). -/
def Obligations.CompleteAndCommandInEitherOrder : Prop :=
  ∀ (s : State) (c : Word32) (i : Instr) (rest : List Input), s.busy = true →
    s.inputs = .stmt (.wr 0x004#10 c) :: rest → decode c = .command i → i ≠ .nop →
    (s.latencyLeft ≠ 0 → ∃ t, step s = .next t ∧ t.inputs = rest ∧ t.err = .busy ∧ t.busy = true ∧
      t.h = s.h ∧ t.l = s.l ∧ t.blkcnt = s.blkcnt) ∧
    (s.latencyLeft = 0 → ∃ t, step s = .next t ∧ t.inputs = s.inputs ∧ t.err = s.err ∧
      t.busy = false ∧ t.blkcnt = s.blkcnt + 1#64 ∧
      ∃ u, step t = .next u ∧ exec i { t with inputs := rest, reply := some ⟨true, false, none⟩ } = .next u)

/-! The bus. -/

/-- R46: what every admitted read returns, that every other offset is a bus error, and that a read only
makes the port answer. -/
def Obligations.BusReadsFollowTheMap : Prop :=
  ∀ s : State,
    memRead s 0x000#10 = some 0x53484132#32 ∧
    memRead s 0x008#10 = some ((s.err.code ++ 0#3 ++ vOfVariant s.variant ++ 0#1 ++ busyBit s.busy
      ++ s.phase.code).setWidth 32) ∧
    memRead s 0x00C#10 = some (s.blkcnt.extractLsb' 0 32) ∧
    memRead s 0x010#10 = some (s.blkcnt.extractLsb' 32 32) ∧
    (∀ k, k < 32 → memRead s (BitVec.ofNat 10 (0x100 + 4 * k)) =
      some (s.blk.read (0x100 + 4 * k) ++ s.blk.read (0x100 + 4 * k + 1)
        ++ s.blk.read (0x100 + 4 * k + 2) ++ s.blk.read (0x100 + 4 * k + 3))) ∧
    (∀ k, k < 16 → memRead s (BitVec.ofNat 10 (0x200 + 4 * k)) =
      some (s.digestView.getD (4 * k) 0 ++ s.digestView.getD (4 * k + 1) 0
        ++ s.digestView.getD (4 * k + 2) 0 ++ s.digestView.getD (4 * k + 3) 0)) ∧
    (∀ off : Offset, ¬ (off = 0x000#10 ∨ off = 0x008#10 ∨ off = 0x00C#10 ∨ off = 0x010#10 ∨
        (∃ k, k < 32 ∧ off = BitVec.ofNat 10 (0x100 + 4 * k)) ∨
        (∃ k, k < 16 ∧ off = BitVec.ofNat 10 (0x200 + 4 * k))) → memRead s off = none) ∧
    (∀ off d, memRead s off = some d →
      transact s (.read off) = .next { s with reply := some ⟨true, false, some d⟩ })

/-- R44, R45 and R59: exactly the misaligned offsets, the three unmapped ranges, the writes to read-only
words and the reads of CMD are bus errors, whatever the state. That an erring access outside a program is
answered with `err`, goes on and changes nothing else (R150, R152, R158) is log entry 3, and that the answer
to a write carries no data is log entry 14. -/
def Obligations.BusErrorsDependOnTheOffsetAlone : Prop :=
  ∀ (s : State) (off : Offset) (v : Word32),
    (memRead s off = none ↔
      off.toNat % 4 ≠ 0 ∨ (0x014 ≤ off.toNat ∧ off.toNat ≤ 0x0FF) ∨
      (0x180 ≤ off.toNat ∧ off.toNat ≤ 0x1FF) ∨ 0x240 ≤ off.toNat ∨ off.toNat = 0x004) ∧
    (memWrite s off v = .fault (.busError off) ↔
      off.toNat % 4 ≠ 0 ∨ (0x014 ≤ off.toNat ∧ off.toNat ≤ 0x0FF) ∨
      (0x180 ≤ off.toNat ∧ off.toNat ≤ 0x1FF) ∨ 0x240 ≤ off.toNat ∨
      off.toNat = 0x000 ∨ off.toNat = 0x008 ∨ off.toNat = 0x00C ∨ off.toNat = 0x010 ∨
      (0x200 ≤ off.toNat ∧ off.toNat ≤ 0x23F)) ∧
    (memWrite s off v ≠ .fault (.busError off) → ∃ t, memWrite s off v = .next t) ∧
    (memRead s off = none → bareAccess s (.read off) =
      .next { s with reply := some ⟨false, true, some 0#32⟩ }) ∧
    (memWrite s off v = .fault (.busError off) → bareAccess s (.write off v) =
      .next { s with reply := some ⟨false, true, none⟩ })

/-- R47: a write to a BLK word stores its four bytes, most significant first, and changes nothing else,
in every phase and while BUSY = 1; a write to CMD is a command; every other write is a bus error. -/
def Obligations.BusWritesFollowTheMap : Prop :=
  ∀ (s : State) (v : Word32), s.blk.wf = true →
    (∀ k, k < 32 → ∃ t, memWrite s (BitVec.ofNat 10 (0x100 + 4 * k)) v = .next t ∧
      t.blk.read (0x100 + 4 * k) = v.extractLsb' 24 8 ∧
      t.blk.read (0x100 + 4 * k + 1) = v.extractLsb' 16 8 ∧
      t.blk.read (0x100 + 4 * k + 2) = v.extractLsb' 8 8 ∧
      t.blk.read (0x100 + 4 * k + 3) = v.extractLsb' 0 8 ∧
      (∀ a, (a < 0x100 + 4 * k ∨ 0x100 + 4 * k + 4 ≤ a) → t.blk.read a = s.blk.read a) ∧
      t.phase = s.phase ∧ t.busy = s.busy ∧ t.variant = s.variant ∧ t.err = s.err ∧
      t.blkcnt = s.blkcnt ∧ t.h = s.h ∧ t.l = s.l ∧ SameHostSide s t) ∧
    memWrite s 0x004#10 v = commandWrite s v ∧
    (∀ off : Offset, ¬ (off = 0x004#10 ∨ ∃ k, k < 32 ∧ off = BitVec.ofNat 10 (0x100 + 4 * k)) →
      memWrite s off v = .fault (.busError off))

/-- 20_memory.md section 7, item 1 of R54: a BLK word reads back what was written, and every other BLK
word reads as before. -/
def Obligations.BlkReadsBackWhatWasWritten : Prop :=
  ∀ (s t : State) (v : Word32) (k : Nat), s.blk.wf = true → k < 32 →
    memWrite s (BitVec.ofNat 10 (0x100 + 4 * k)) v = .next t →
    memRead t (BitVec.ofNat 10 (0x100 + 4 * k)) = some v ∧
    ∀ k', k' < 32 → k' ≠ k →
      memRead t (BitVec.ofNat 10 (0x100 + 4 * k')) = memRead s (BitVec.ofNat 10 (0x100 + 4 * k'))

/-- R48: the bus word at 0x100 + 4k carries BLK[4k] in bits 31:24 down to BLK[4k+3] in bits 7:0, and is
`pack_256(BLK, 4k)`; in SHA-256 it is the word that a COMPRESS latches into L[k]. -/
def Obligations.BlkBusWordIsPack256 : Prop :=
  ∀ (s : State) (k : Nat), k < 32 → ∃ x : Word32,
    memRead s (BitVec.ofNat 10 (0x100 + 4 * k)) = some x ∧
    x.extractLsb' 24 8 = s.blkByte (4 * k) ∧ x.extractLsb' 16 8 = s.blkByte (4 * k + 1) ∧
    x.extractLsb' 8 8 = s.blkByte (4 * k + 2) ∧ x.extractLsb' 0 8 = s.blkByte (4 * k + 3) ∧
    pack .sha256 s.blkBytes (4 * k) = some x ∧
    ∀ t, s.variant = .sha256 → s.busy = false → exec .compress s = .next t → t.busy = true →
      ∀ hk : k < 16, t.l[k] = x.setWidth 64

/-- R121: the digest view in every phase: the unpacked H and zeros after it in DONE, zeros otherwise. -/
def Obligations.DigestViewIsHiddenUntilDone : Prop :=
  ∀ s : State,
    (s.phase = .done → s.digestView =
      (List.range 8).flatMap (fun j => unpack s.variant ((s.h.toList.getD j 0).setWidth s.variant.wordBits))
        ++ List.replicate (64 - s.variant.digestBytes) 0#8) ∧
    (s.phase ≠ .done → s.digestView = List.replicate 64 0#8) ∧
    s.digestView.length = 64

/-- R49: the DIGEST words in terms of H, by phase and variant. -/
def Obligations.DigestWindowShowsHOnlyWhenDone : Prop :=
  ∀ s : State,
    (s.phase ≠ .done → ∀ k, k < 16 → memRead s (BitVec.ofNat 10 (0x200 + 4 * k)) = some 0#32) ∧
    (s.phase = .done → s.variant = .sha256 →
      (∀ k : Fin 8, memRead s (BitVec.ofNat 10 (0x200 + 4 * k.val)) = some (s.h[k].setWidth 32)) ∧
      (∀ k, 8 ≤ k → k < 16 → memRead s (BitVec.ofNat 10 (0x200 + 4 * k)) = some 0#32)) ∧
    (s.phase = .done → s.variant = .sha512 → ∀ j : Fin 8,
      memRead s (BitVec.ofNat 10 (0x200 + 8 * j.val)) = some (s.h[j].extractLsb' 32 32) ∧
      memRead s (BitVec.ofNat 10 (0x204 + 8 * j.val)) = some (s.h[j].extractLsb' 0 32))

/-- R22-R26: where the fields of STATUS stand and what their codes are, that the reserved bits read 0,
and that a write to STATUS is a bus error. -/
def Obligations.StatusFieldsAndReservedBits : Prop :=
  ∀ s : State, ∃ x : Word32, memRead s 0x008#10 = some x ∧
    x.extractLsb' 0 2 = (match s.phase with | .idle => 0#2 | .ready => 1#2 | .done => 2#2) ∧
    x.getLsbD 2 = s.busy ∧ x.getLsbD 3 = false ∧
    x.getLsbD 4 = (match s.variant with | .sha256 => false | .sha512 => true) ∧
    x.extractLsb' 5 3 = 0#3 ∧
    x.extractLsb' 8 4 = (match s.err with
      | .none => 0#4 | .badOpcode => 1#4 | .reservedBits => 2#4 | .busy => 3#4 | .badPhase => 4#4
      | .noBlock => 5#4) ∧
    x.extractLsb' 12 20 = 0#20 ∧
    ∀ v, memWrite s 0x008#10 v = .fault (.busError 0x008#10)

/-- R27: ID always reads its constant, and a write to it is a bus error. -/
def Obligations.IdIsConstant : Prop :=
  ∀ (s : State) (v : Word32), memRead s 0x000#10 = some 0x53484132#32 ∧
    memWrite s 0x000#10 v = .fault (.busError 0x000#10)

/-- R152: a transaction that the map does not admit is answered with `err`, a read with data 0, and no
state of the engine changes; a statement of a program ends in BUSERR(off). That a transaction outside a
program goes on is R150 and R158 (log entry 3). -/
def Obligations.BusErrorAnswersAndChangesNothing : Prop :=
  ∀ (s : State) (rest : List Input) (off : Offset), s.engineTurn = false →
    (memRead s off = none → s.inputs = .access (.read off) :: rest →
      step s = .next { s with
        inputs := rest
        latencyLeft := s.latencyLeft - 1
        reply := some ⟨false, true, some 0#32⟩ }) ∧
    (∀ v, writeAdmitted off = false → s.inputs = .access (.write off v) :: rest →
      step s = .next { s with
        inputs := rest
        latencyLeft := s.latencyLeft - 1
        reply := some ⟨false, true, none⟩ }) ∧
    (memRead s off = none → s.inputs = .stmt (.rd off) :: rest → step s = .fault (.busError off)) ∧
    (∀ mask value, memRead s off = none → s.inputs = .stmt (.poll off mask value) :: rest →
      step s = .fault (.busError off)) ∧
    (∀ v, writeAdmitted off = false → s.inputs = .stmt (.wr off v) :: rest →
      step s = .fault (.busError off))

/-- R150: the engine never refuses, and no state of its own stops it. A statement of the host's program that
the register map does not admit always stops a run (R69, R152). That nothing else does, an erring access
outside a program being answered and the run going on (R150, R158), is log entry 3. -/
def Obligations.OnlyABusErrorStopsAProgram : Prop :=
  ∀ s : State, (∀ r, step s ≠ .refused r) ∧
    ((∃ r, step s = .fault r) ↔
      s.engineTurn = false ∧ ∃ st rest, s.inputs = .stmt st :: rest ∧ st.admitted = false)

/-! The word codec. -/

/-- R76: an in-bounds pack is the big-endian sum of its bytes. That there is none out of bounds, where R77
gives no meaning and U16 says to refuse, is log entry 15. -/
def Obligations.PackIsTheBigEndianSum : Prop :=
  ∀ (v : Variant) (b : List Byte) (off : Nat),
    (off + v.wordBytes ≤ b.length → ∃ x, pack v b off = some x ∧
      x.toNat = ((List.range v.wordBytes).map fun i =>
        (b.getD (off + i) 0).toNat * 2 ^ (8 * (v.wordBytes - 1 - i))).sum) ∧
    (b.length < off + v.wordBytes → pack v b off = none)

/-- R78: unpack gives `ws` bytes, byte `i` being `(x >> (8 * (ws - 1 - i))) mod 256`. -/
def Obligations.UnpackIsMostSignificantFirst : Prop :=
  ∀ (v : Variant) (x : BitVec v.wordBits), (unpack v x).length = v.wordBytes ∧
    ∀ i, i < v.wordBytes →
      ((unpack v x).getD i 0).toNat = x.toNat / 2 ^ (8 * (v.wordBytes - 1 - i)) % 256

/-- R79: pack and unpack are inverse to each other. -/
def Obligations.PackAndUnpackAreInverse : Prop :=
  ∀ v : Variant,
    (∀ x : BitVec v.wordBits, pack v (unpack v x) 0 = some x) ∧
    (∀ (b : List Byte) (off : Nat), off + v.wordBytes ≤ b.length → ∃ x, pack v b off = some x ∧
      unpack v x = (b.drop off).take v.wordBytes)

/-- R82 and R83: the message words in terms of the bus words of BLK. -/
def Obligations.MessageWordsAreBusWords : Prop :=
  ∀ (s : State) (t : Nat), t < 16 →
    s.messageWord .sha256 t = s.blkWord t ∧
    s.messageWord .sha512 t = s.blkWord (2 * t) ++ s.blkWord (2 * t + 1)

/-- R80, R77: in SHA-256 a COMPRESS reads BLK[0..63] only, and in SHA-512 BLK[0..127] only: memories
that agree there latch the same words. -/
def Obligations.CompressReadsOnlyItsBlock : Prop :=
  ∀ s s' t t' : State, s'.variant = s.variant → exec .compress s = .next t → exec .compress s' = .next t' →
    t.busy = true → s.busy = false → t'.busy = true → s'.busy = false →
    (∀ i, i < s.variant.blockBytes → s'.blkByte i = s.blkByte i) → t'.l = t.l

/-! The schedule and the compression. -/

/-- R86, R87, R97, R100: the eight sigma functions, with the amounts of R5. -/
def Obligations.SigmaFunctions : Prop :=
  (∀ x : BitVec 32,
    smallSigma0 .sha256 x = x.rotateRight 7 ^^^ x.rotateRight 18 ^^^ (x >>> 3) ∧
    smallSigma1 .sha256 x = x.rotateRight 17 ^^^ x.rotateRight 19 ^^^ (x >>> 10) ∧
    bigSigma1 .sha256 x = x.rotateRight 6 ^^^ x.rotateRight 11 ^^^ x.rotateRight 25 ∧
    bigSigma0 .sha256 x = x.rotateRight 2 ^^^ x.rotateRight 13 ^^^ x.rotateRight 22) ∧
  (∀ x : BitVec 64,
    smallSigma0 .sha512 x = x.rotateRight 1 ^^^ x.rotateRight 8 ^^^ (x >>> 7) ∧
    smallSigma1 .sha512 x = x.rotateRight 19 ^^^ x.rotateRight 61 ^^^ (x >>> 6) ∧
    bigSigma1 .sha512 x = x.rotateRight 14 ^^^ x.rotateRight 18 ^^^ x.rotateRight 41 ∧
    bigSigma0 .sha512 x = x.rotateRight 28 ^^^ x.rotateRight 34 ^^^ x.rotateRight 39)

/-- R98 and R101: Ch chooses by the bits of `e`, and Maj is the majority of three bits. -/
def Obligations.ChChoosesAndMajIsMajority : Prop :=
  ∀ (w : Nat) (x y z : BitVec w) (i : Nat), i < w →
    (ch x y z).getLsbD i = (if x.getLsbD i then y.getLsbD i else z.getLsbD i) ∧
    (maj x y z).getLsbD i =
      decide (2 ≤ (x.getLsbD i).toNat + (y.getLsbD i).toNat + (z.getLsbD i).toNat)

/-- R88 and R89: the schedule has SCHED_LEN words, starts with the sixteen words of the block, and obeys
the recurrence everywhere after them. -/
def Obligations.ScheduleRecurrence : Prop :=
  ∀ (v : Variant) (ls : List (BitVec v.wordBits)), ls.length = 16 →
    (expand v ls).length = v.rounds ∧
    (∀ j, j < 16 → (expand v ls).getD j 0 = ls.getD j 0) ∧
    (∀ j, 16 ≤ j → j < v.rounds → (expand v ls).getD j 0 =
      (expand v ls).getD (j - 16) 0 + smallSigma0 v ((expand v ls).getD (j - 15) 0)
        + (expand v ls).getD (j - 7) 0 + smallSigma1 v ((expand v ls).getD (j - 2) 0))

/-- R106: the compression is ROUNDS rounds from the chaining value, round `i` with `K_v[i]` and `W[i]`,
and the add-back. -/
def Obligations.CompressIsRoundsAndAddBack : Prop :=
  ∀ (v : Variant) (hin : Working v.wordBits) (ls : List (BitVec v.wordBits)), ls.length = 16 →
    ∃ x : Nat → Working v.wordBits, x 0 = hin ∧
      (∀ i, i < v.rounds →
        (let k := (roundConstants v).getD i 0
         let w := (expand v ls).getD i 0
         let y := x i
         let t1 := y.h + bigSigma1 v y.e + ch y.e y.f y.g + k + w
         let t2 := bigSigma0 v y.a + maj y.a y.b y.c
         x (i + 1) = ⟨t1 + t2, y.a, y.b, y.c, y.d + t1, y.e, y.f, y.g⟩)) ∧
      compress v hin ls =
        (let y := x v.rounds
         ⟨hin.a + y.a, hin.b + y.b, hin.c + y.c, hin.d + y.d,
          hin.e + y.e, hin.f + y.f, hin.g + y.g, hin.h + y.h⟩)

/-- R90: in SHA-256 the bits 63:32 of H and L never reach the result of a COMPLETE step. -/
def Obligations.Sha256IgnoresUpperHalves : Prop :=
  ∀ s s' t t' : State, s.variant = .sha256 → s'.variant = .sha256 →
    s.engineTurn = true → s'.engineTurn = true → step s = .next t → step s' = .next t' →
    (∀ j : Fin 8, s'.h[j].setWidth 32 = s.h[j].setWidth 32) →
    (∀ k : Fin 16, s'.l[k].setWidth 32 = s.l[k].setWidth 32) → t'.h = t.h

/-- R114: the tables have their sizes, and the upper halves of the SHA-512 tables are the SHA-256 ones. -/
def Obligations.RomTablesAgree : Prop :=
  k256.length = 64 ∧ k512.length = 80 ∧ iv256.length = 8 ∧ iv512.length = 8 ∧
  (∀ i, i < 64 → (k512.getD i 0) >>> 32 = (k256.getD i 0).setWidth 64) ∧
  (∀ j, j < 8 → (iv512.getD j 0) >>> 32 = (iv256.getD j 0).setWidth 64)

/-- 93_implementation_defined.md G1 and G2: the round constants are the first bits of the fractional
parts of the cube roots of the first 80 (or 64) primes, and the initialization vectors those of the square
roots of the first 8. `x` is the integer that the root times `2^64` (or `2^32`) rounds down to. -/
def Obligations.RomConstantsAreRootsOfPrimes : Prop :=
  let primes := (List.range 410).filter fun n => 2 ≤ n && (List.range n).all fun d => d < 2 || n % d != 0
  primes.length = 80 ∧
  (∀ i, i < 80 → ∃ q, q < 8 ∧
    let x := q * 2 ^ 64 + (k512.getD i 0).toNat
    x ^ 3 ≤ primes.getD i 0 * 2 ^ 192 ∧ primes.getD i 0 * 2 ^ 192 < (x + 1) ^ 3) ∧
  (∀ i, i < 64 → ∃ q, q < 8 ∧
    let x := q * 2 ^ 32 + (k256.getD i 0).toNat
    x ^ 3 ≤ primes.getD i 0 * 2 ^ 96 ∧ primes.getD i 0 * 2 ^ 96 < (x + 1) ^ 3) ∧
  (∀ j, j < 8 → ∃ q, q < 5 ∧
    let x := q * 2 ^ 64 + (iv512.getD j 0).toNat
    x ^ 2 ≤ primes.getD j 0 * 2 ^ 128 ∧ primes.getD j 0 * 2 ^ 128 < (x + 1) ^ 2) ∧
  (∀ j, j < 8 → ∃ q, q < 5 ∧
    let x := q * 2 ^ 32 + (iv256.getD j 0).toNat
    x ^ 2 ≤ primes.getD j 0 * 2 ^ 64 ∧ primes.getD j 0 * 2 ^ 64 < (x + 1) ^ 2)

/-! Whole-machine rules. -/

/-- The invariants of R36 hold right after reset. -/
def Obligations.InvariantsHoldAtReset : Prop := Inv State.reset

/-- R36: every step keeps the invariants. The canonical form of BLK and the turn counter are the model's
own (log entries 1 and 5). -/
def Obligations.EveryStepKeepsTheInvariants : Prop :=
  ∀ s t : State, Inv s → step s = .next t → Inv t

/-- R122: Merkle-Damgard chaining. After an accepted INIT, whatever happens except a reset or another
INIT, H is the compression of the accepted blocks in order, BLKCNT counts them, and in DONE the digest
view shows the digest of H. -/
def Obligations.MessageBlocksAreChainedInOrder : Prop :=
  ∀ (v : Variant) (s0 s : State), s0.busy = false → exec (.init v) s0 = .next s →
    ∀ (bs : List (List (BitVec v.wordBits))) (t : State), MessageRun v s bs t → t.busy = false →
      t.variant = v ∧
      t.h = regsOfWorking (chain v (ivWorking v) bs) ∧
      t.blkcnt = BitVec.ofNat 64 bs.length ∧
      (t.phase = .done → t.digestView =
        digestBytesOf v (chain v (ivWorking v) bs) ++ List.replicate (64 - v.digestBytes) 0#8)

/-- R122 and R123 as an invariant of every step: an accepted INIT begins the chain, every step but a reset
or another accepted INIT keeps it, with one more block where a COMPRESS is accepted, and in DONE the digest
view shows the digest of the chained blocks. -/
def Obligations.EveryStepKeepsTheChain : Prop :=
  ∀ v : Variant,
    (∀ s t : State, s.busy = false → exec (.init v) s = .next t → Chained v [] t) ∧
    (∀ (bs : List (List (BitVec v.wordBits))) (s t : State), Chained v bs s → step s = .next t →
      s.resetNext = false → s.initNext = false →
      Chained v (if s.acceptedNext = some .compress then bs ++ [s.messageWords v] else bs) t) ∧
    (∀ (bs : List (List (BitVec v.wordBits))) (s : State), Chained v bs s → s.phase = .done →
      s.digestView = digestBytesOf v (chain v (ivWorking v) bs)
        ++ List.replicate (64 - v.digestBytes) 0#8)

/-- R23 and R116: the codes of PHASE, and that it moves only by an accepted INIT (to READY), an accepted
FINAL (READY to DONE) or a reset (to IDLE). -/
def Obligations.PhaseMovesOnlyForward : Prop :=
  Phase.code .idle = 0#2 ∧ Phase.code .ready = 1#2 ∧ Phase.code .done = 2#2 ∧
  (∀ p, Phase.code p ≠ 3#2) ∧ State.reset.phase = .idle ∧
  ∀ s t : State, step s = .next t →
    t.phase = s.phase ∨
    (s.initNext = true ∧ s.busy = false ∧ t.phase = .ready ∧ t.blkcnt = 0#64) ∨
    (s.acceptedNext = some .final ∧ s.busy = false ∧ s.phase = .ready ∧ s.blkcnt ≠ 0#64 ∧ t.phase = .done) ∨
    (s.resetNext = true ∧ t.phase = .idle)

/-- R31 and R107: only an accepted INIT, the COMPLETE step and reset write H. -/
def Obligations.OnlyInitCompleteAndResetWriteH : Prop :=
  ∀ s t : State, step s = .next t → t.h ≠ s.h →
    (s.initNext = true ∧ t.h = regsOfWorking (ivWorking t.variant)) ∨
    (s.engineTurn = true ∧ s.busy = true ∧
      t.h = regsOfWorking (addBack s.chainingValue
        (runRounds s.variant s.chainingValue (expand s.variant s.latchedWords)))) ∨
    (s.resetNext = true ∧ t.h = Vector.replicate 8 0#64)

/-- R25 and R155: ERR is sticky. A rejected command writes its code and nothing else of the engine; an
accepted INIT and reset write NONE. Nothing else writes ERR: if it changes otherwise, a CMD write waits
whose word is rejected, so reads, POLLs, BLK writes, bus errors and idle turns leave it, as do an accepted
NOP, COMPRESS or FINAL and the COMPLETE step. -/
def Obligations.ErrIsSticky : Prop :=
  ∀ s t : State, step s = .next t →
    ((s.initNext = true ∨ s.resetNext = true) → t.err = .none) ∧
    (∀ c rest e, s.engineTurn = false →
      (s.inputs = .stmt (.wr 0x004#10 c) :: rest ∨ s.inputs = .access (.write 0x004#10 c) :: rest) →
      rejectionCode s c = some e →
      t.err = e ∧ e ≠ .none ∧ t.phase = s.phase ∧ t.busy = s.busy ∧ t.variant = s.variant ∧
        t.blkcnt = s.blkcnt ∧ t.h = s.h ∧ t.l = s.l ∧ t.blk = s.blk) ∧
    (s.initNext = false → s.resetNext = false → t.err ≠ s.err →
      s.engineTurn = false ∧ ∃ c rest e,
        (s.inputs = .stmt (.wr 0x004#10 c) :: rest ∨ s.inputs = .access (.write 0x004#10 c) :: rest) ∧
        rejectionCode s c = some e ∧ t.err = e) ∧
    (s.acceptedNext = some .nop ∨ s.acceptedNext = some .compress ∨ s.acceptedNext = some .final ∨
      s.engineTurn = true → t.err = s.err)

/-- R24: BUSY rises only by an accepted COMPRESS, which always raises it, and falls only by the COMPLETE
step or reset; while it is 1 every command but NOP is rejected with BUSY. -/
def Obligations.BusyRisesByCompressAndFallsByComplete : Prop :=
  State.reset.busy = false ∧
  (∀ (s : State) (i : Instr), s.busy = true → i ≠ .nop → exec i s = .next { s with err := .busy }) ∧
  ∀ s t : State, step s = .next t →
    (s.busy = false → (t.busy = true ↔ s.acceptedNext = some .compress)) ∧
    (s.busy = true → (t.busy = false ↔ s.engineTurn = true ∨ s.resetNext = true))

/-- R22 and R29: only an accepted INIT (or reset) writes VARIANT; BLKCNT is cleared by them and counted
up by COMPLETE, and nothing else writes it. -/
def Obligations.VariantAndBlkcntWriters : Prop :=
  ∀ s t : State, step s = .next t →
    (s.initNext = false → s.resetNext = false → t.variant = s.variant) ∧
    ((s.initNext = true ∨ s.resetNext = true) → t.blkcnt = 0#64) ∧
    (s.engineTurn = true → t.blkcnt = s.blkcnt + 1#64) ∧
    (s.initNext = false → s.resetNext = false → s.engineTurn = false → t.blkcnt = s.blkcnt)

/-- R30 and R32: the engine never writes BLK: only a host write to a BLK word and reset change it; only
an accepted COMPRESS and reset write L. -/
def Obligations.BlkAndLWriters : Prop :=
  ∀ s t : State, step s = .next t →
    (t.blk ≠ s.blk → s.resetNext = true ∨
      (s.engineTurn = false ∧ ∃ off v rest, writeAdmitted off = true ∧ off ≠ 0x004#10 ∧
        (s.inputs = .stmt (.wr off v) :: rest ∨ s.inputs = .access (.write off v) :: rest))) ∧
    (t.l ≠ s.l → s.resetNext = true ∨ (s.acceptedNext = some .compress ∧ t.l = s.latchedBlock))

/-- R170 and R171: a reset gives every element its reset value, whatever else could happen in that step,
a compression in flight included, and no COMPLETE step follows; `State.reset` has the same values. -/
def Obligations.ResetWinsAndClearsEverything : Prop :=
  (∀ (s : State) (cut : Option Access) (rest : List Input), s.inputs = .reset cut :: rest →
    ∃ t, step s = .next t ∧ t.phase = .idle ∧ t.busy = false ∧ t.variant = .sha256 ∧ t.err = .none ∧
      t.blkcnt = 0#64 ∧ (∀ i, t.blkByte i = 0#8) ∧ (∀ j : Fin 8, t.h[j] = 0#64) ∧
      (∀ k : Fin 16, t.l[k] = 0#64) ∧ memRead t 0x008#10 = some 0#32 ∧
      memRead t 0x000#10 = some 0x53484132#32 ∧ t.engineTurn = false) ∧
  State.reset.phase = .idle ∧ State.reset.busy = false ∧ State.reset.variant = .sha256 ∧
  State.reset.err = .none ∧ State.reset.blkcnt = 0#64 ∧ (∀ i, State.reset.blkByte i = 0#8) ∧
  (∀ j : Fin 8, State.reset.h[j] = 0#64) ∧ (∀ k : Fin 16, State.reset.l[k] = 0#64) ∧
  memRead State.reset 0x008#10 = some 0#32 ∧ memRead State.reset 0x000#10 = some 0x53484132#32

/-- R115: a step whose turn is the environment's and whose next input is a CMD write of a word that
decodes to `i` is `exec i` of the state with that input taken, the turn counted and the write
acknowledged; a word that decodes to nothing is acknowledged and rejected. -/
def Obligations.StepRunsTheDecodedCommand : Prop :=
  ∀ (s : State) (c : Word32) (rest : List Input), s.engineTurn = false →
    (s.inputs = .stmt (.wr 0x004#10 c) :: rest ∨ s.inputs = .access (.write 0x004#10 c) :: rest) →
    (∀ i, decode c = .command i → step s = exec i { s with
      inputs := rest
      latencyLeft := s.latencyLeft - 1
      reply := some ⟨true, false, none⟩ }) ∧
    (∀ e, decode c = .illegal e → step s = .next { s with
      inputs := rest
      latencyLeft := s.latencyLeft - 1
      reply := some ⟨true, false, none⟩
      err := match e with | .badOpcode => .badOpcode | .reservedBits => .reservedBits })

/-! The host's side. -/

/-- R70 and R72: POLL makes its read again until the condition holds, so WAIT waits until BUSY = 0. That
the turn is counted is log entry 1, that the reads are no results is log entry 11, and that the POLL stays
in front, one read a turn, is log entry 17. -/
def Obligations.PollRepeatsUntilItsConditionHolds : Prop :=
  ∀ (s : State) (off : Offset) (mask value d : Word32) (rest : List Input), s.engineTurn = false →
    s.inputs = .stmt (.poll off mask value) :: rest → memRead s off = some d →
    (d &&& mask = value → step s = .next { s with
      inputs := rest
      latencyLeft := s.latencyLeft - 1
      reply := some ⟨true, false, some d⟩ }) ∧
    (d &&& mask ≠ value → step s = .next { s with
      latencyLeft := s.latencyLeft - 1
      reply := some ⟨true, false, some d⟩ }) ∧
    Asm.expand .wait = some [.poll 0x008#10 0x00000004#32 0x00000000#32] ∧
    (Asm.expand .wait = some [.poll off mask value] → (d &&& mask = value ↔ s.busy = false))

/-- R73: LDBLK of a byte sequence whose length is a multiple of 4 and at most 128 expands to its word
writes in increasing `k`; after them BLK[0..n-1] is the sequence, and every other byte of BLK and every
other part of the state is as it was, in every phase and while BUSY = 1. -/
def Obligations.LdblkLoadsTheBlock : Prop :=
  ∀ (s : State) (b : List Byte), s.blk.wf = true →
    b.length % 4 = 0 → b.length ≤ 128 →
    ∃ stmts, Asm.expand (.ldblk b) = some stmts ∧ stmts.length = b.length / 4 ∧
      (∀ k, k < b.length / 4 → ∃ x, pack .sha256 b (4 * k) = some x ∧
        stmts.getD k waitStmt = .wr (BitVec.ofNat 10 (0x100 + 4 * k)) x) ∧
      ∃ t, writeAll s stmts = some t ∧
        (∀ i, t.blkByte i = if i < b.length then b.getD i 0 else s.blkByte i) ∧
        t.phase = s.phase ∧ t.busy = s.busy ∧ t.variant = s.variant ∧ t.err = s.err ∧
        t.blkcnt = s.blkcnt ∧ t.h = s.h ∧ t.l = s.l ∧ SameHostSide s t

/-- R74: RDDIG expands to one read a digest word, 8 in SHA-256 and 16 in SHA-512; in DONE, the words
read, most significant byte first, are the digest bytes of R81. -/
def Obligations.RddigReadsTheDigest : Prop :=
  (∀ v, ∃ stmts, Asm.expand (.rddig v) = some stmts ∧
    stmts.length = (match v with | .sha256 => 8 | .sha512 => 16) ∧
    ∀ k, k < stmts.length → stmts.getD k waitStmt = .rd (BitVec.ofNat 10 (0x200 + 4 * k))) ∧
  ∀ (s : State) (stmts : List Stmt) (rest : List Input), s.phase = .done → s.busy = false →
    Asm.expand (.rddig s.variant) = some stmts → s.inputs = stmts.map .stmt ++ rest →
    ∃ t ws, Sys2Proof.core.run stmts.length s = .next t ∧
      State.reads t = s.reads ++ ws ∧ ws.length = s.variant.digestBytes / 4 ∧
      ws.flatMap (unpack .sha256) = digestBytesOf s.variant s.chainingValue ∧ State.inputs t = rest

/-- R137: `new_size` is the least size that holds the message and the 0x80 byte and leaves exactly the
length field in its last block; the padded length is that and the length field. -/
def Obligations.PaddedSizeIsTheLeast : Prop :=
  ∀ (v : Variant) (m : List Byte),
    let n := m.length
    n + 1 ≤ paddedBody v n ∧ paddedBody v n % v.blockBytes = v.blockBytes - v.lenBytes ∧
    (∀ k, n + 1 ≤ k → k % v.blockBytes = v.blockBytes - v.lenBytes → paddedBody v n ≤ k) ∧
    (pad v m).length = paddedBody v n + v.lenBytes

/-- R140: the padded buffer is a positive whole number of blocks, their number, its length field, and
that it starts with the message. -/
def Obligations.PaddingProperties : Prop :=
  ∀ (v : Variant) (m : List Byte),
    (pad v m).length = v.blockBytes * ((m.length + v.lenBytes) / v.blockBytes + 1) ∧
    (blocksOf v (pad v m)).length = (m.length + v.lenBytes) / v.blockBytes + 1 ∧
    (∀ b ∈ blocksOf v (pad v m), b.length = v.blockBytes) ∧
    (pad v m).take m.length = m ∧
    (pad v m).getD m.length 0 = 0x80#8 ∧
    (∀ i, m.length < i → i < paddedBody v m.length → (pad v m).getD i 0 = 0#8) ∧
    (messageLengthInDomain m.length = true → ∀ i, i < v.lenBytes →
      ((pad v m).getD ((pad v m).length - v.lenBytes + i) 0).toNat =
        8 * m.length / 2 ^ (8 * (v.lenBytes - 1 - i)) % 256)

/-- R141: two lowercase digits a byte, the high nibble first. -/
def Obligations.HexIsTwoLowercaseDigitsAByte : Prop :=
  ∀ d : List Byte,
    (hex d).length = 2 * d.length ∧
    (∀ c ∈ hex d, c ∈ "0123456789abcdef".toList) ∧
    (∀ i, i < d.length →
      (hex d).getD (2 * i) ' ' = "0123456789abcdef".toList.getD ((d.getD i 0).toNat / 16) ' ' ∧
      (hex d).getD (2 * i + 1) ' ' = "0123456789abcdef".toList.getD ((d.getD i 0).toNat % 16) ' ')

/-- R182: the protocol for a message of `n` blocks makes `1 + 17n + 1 + 8` transactions in SHA-256 and
`1 + 33n + 1 + 16` in SHA-512, besides the STATUS reads of its WAITs. -/
def Obligations.ProtocolTransactionCount : Prop :=
  ∀ (v : Variant) (m : List Byte), messageLengthInDomain m.length = true →
    ∃ prog stmts, hostProtocol v m = some prog ∧ expandProgram prog = some stmts ∧
      (let n := (blocksOf v (pad v m)).length
       (stmts.filter fun st => st != waitStmt).length =
         match v with
         | .sha256 => 1 + 17 * n + 1 + 8
         | .sha512 => 1 + 33 * n + 1 + 16)

/-- R163: a step of one engine of a system changes no other, and what it does depends on no other. -/
def Obligations.InstancesAreIndependent : Prop :=
  ∀ (a b : System) (i : Nat) (a' : System), a.stepAt i = some (.next a') →
    a'.length = a.length ∧ (∀ j, j ≠ i → a'[j]? = a[j]?) ∧
    (b[i]? = a[i]? → ∃ b' : System, b.stepAt i = some (.next b') ∧ b'[i]? = a'[i]?)

/-- R143: a host that follows the protocol of R142 for any message in the domain, from any state that
meets the invariants and whatever the latencies (log entry 1), reads the digest of the message; every
command is accepted, so ERR = 0 at the end. That the reads of a WAIT are no results is log entry 11. -/
def Obligations.HostProtocolReadsTheDigest : Prop :=
  ∀ (v : Variant) (m : List Byte) (s : State) (rest : List Input), Inv s →
    messageLengthInDomain m.length = true →
    ∃ prog stmts, hostProtocol v m = some prog ∧ expandProgram prog = some stmts ∧
      (s.inputs = stmts.map .stmt ++ rest →
        ∃ n t ws, Sys2Proof.core.run n s = .next t ∧ State.inputs t = rest ∧
          State.reads t = s.reads ++ ws ∧ State.phase t = .done ∧ State.variant t = v ∧
          State.err t = .none ∧ State.busy t = false ∧
          ws.flatMap (unpack .sha256) = digestBytes v m ∧
          digest v m = some (String.ofList (hex (ws.flatMap (unpack .sha256)))))

/-- R142 and R143 for every host that follows the protocol. Which hosts do is log entry 20: they may load any
part of the next block before the WAIT that follows a COMPRESS, and read STATUS, ID or BLKCNT at any time,
and make no other read or POLL beside the listing. That the reads of a WAIT are no results is log entry 11,
and when a compression completes is log entry 1. The plain listing of R142 is one such host. From any state that meets the invariants and whatever the latencies, what RDDIG reads is the
digest of the message, and every command is accepted. -/
def Obligations.EveryHostThatFollowsTheProtocolReadsTheDigest : Prop :=
  (∀ (v : Variant) (m : List Byte) (prog : List Asm) (stmts : List Stmt),
    hostProtocol v m = some prog → expandProgram prog = some stmts → FollowsProtocol v m stmts) ∧
  ∀ (v : Variant) (m : List Byte) (s : State) (stmts : List Stmt) (rest : List Input), Inv s →
    FollowsProtocol v m stmts → s.inputs = stmts.map .stmt ++ rest →
    ∃ n t ws, Sys2Proof.core.run n s = .next t ∧ State.inputs t = rest ∧
      State.reads t = s.reads ++ ws ∧ ws.length = (resultStmts stmts).length ∧
      State.phase t = .done ∧ State.variant t = v ∧ State.err t = .none ∧ State.busy t = false ∧
      (digestResults stmts ws).flatMap (unpack .sha256) = digestBytes v m ∧
      digest v m = some (String.ofList (hex ((digestResults stmts ws).flatMap (unpack .sha256))))
end

