-- ==== Sys2Proof/Laws/State.lean ====
section
/-! SUPPORT. One lemma per field and update of State, true by rfl: no proof needs to unfold a record update. -/

namespace Sys2Proof.Machine

/-! A BLK write (R47) changes BLK and nothing else. -/

@[simp] theorem State.storeBlkWord_phase (s : State) (k : Nat) (v : Word32) :
    (s.storeBlkWord k v).phase = s.phase := rfl
@[simp] theorem State.storeBlkWord_busy (s : State) (k : Nat) (v : Word32) :
    (s.storeBlkWord k v).busy = s.busy := rfl
@[simp] theorem State.storeBlkWord_variant (s : State) (k : Nat) (v : Word32) :
    (s.storeBlkWord k v).variant = s.variant := rfl
@[simp] theorem State.storeBlkWord_err (s : State) (k : Nat) (v : Word32) :
    (s.storeBlkWord k v).err = s.err := rfl
@[simp] theorem State.storeBlkWord_blkcnt (s : State) (k : Nat) (v : Word32) :
    (s.storeBlkWord k v).blkcnt = s.blkcnt := rfl
@[simp] theorem State.storeBlkWord_blk (s : State) (k : Nat) (v : Word32) :
    (s.storeBlkWord k v).blk = s.blk.storeWord k v := rfl
@[simp] theorem State.storeBlkWord_h (s : State) (k : Nat) (v : Word32) :
    (s.storeBlkWord k v).h = s.h := rfl
@[simp] theorem State.storeBlkWord_l (s : State) (k : Nat) (v : Word32) :
    (s.storeBlkWord k v).l = s.l := rfl
@[simp] theorem State.storeBlkWord_inputs (s : State) (k : Nat) (v : Word32) :
    (s.storeBlkWord k v).inputs = s.inputs := rfl
@[simp] theorem State.storeBlkWord_reads (s : State) (k : Nat) (v : Word32) :
    (s.storeBlkWord k v).reads = s.reads := rfl
@[simp] theorem State.storeBlkWord_reply (s : State) (k : Nat) (v : Word32) :
    (s.storeBlkWord k v).reply = s.reply := rfl
@[simp] theorem State.storeBlkWord_latencyLeft (s : State) (k : Nat) (v : Word32) :
    (s.storeBlkWord k v).latencyLeft = s.latencyLeft := rfl
@[simp] theorem State.storeBlkWord_draws (s : State) (k : Nat) (v : Word32) :
    (s.storeBlkWord k v).draws = s.draws := rfl
@[simp] theorem State.storeBlkWord_engine (s : State) (k : Nat) (v : Word32) :
    (s.storeBlkWord k v).engine = s.engine := rfl

/-! A rejection (R151) changes ERR and nothing else. -/

@[simp] theorem State.reject_phase (s : State) (c : ErrCode) :
    (s.reject c).phase = s.phase := rfl
@[simp] theorem State.reject_busy (s : State) (c : ErrCode) :
    (s.reject c).busy = s.busy := rfl
@[simp] theorem State.reject_variant (s : State) (c : ErrCode) :
    (s.reject c).variant = s.variant := rfl
@[simp] theorem State.reject_err (s : State) (c : ErrCode) :
    (s.reject c).err = c := rfl
@[simp] theorem State.reject_blkcnt (s : State) (c : ErrCode) :
    (s.reject c).blkcnt = s.blkcnt := rfl
@[simp] theorem State.reject_blk (s : State) (c : ErrCode) :
    (s.reject c).blk = s.blk := rfl
@[simp] theorem State.reject_h (s : State) (c : ErrCode) :
    (s.reject c).h = s.h := rfl
@[simp] theorem State.reject_l (s : State) (c : ErrCode) :
    (s.reject c).l = s.l := rfl
@[simp] theorem State.reject_inputs (s : State) (c : ErrCode) :
    (s.reject c).inputs = s.inputs := rfl
@[simp] theorem State.reject_reads (s : State) (c : ErrCode) :
    (s.reject c).reads = s.reads := rfl
@[simp] theorem State.reject_reply (s : State) (c : ErrCode) :
    (s.reject c).reply = s.reply := rfl
@[simp] theorem State.reject_latencyLeft (s : State) (c : ErrCode) :
    (s.reject c).latencyLeft = s.latencyLeft := rfl
@[simp] theorem State.reject_draws (s : State) (c : ErrCode) :
    (s.reject c).draws = s.draws := rfl
@[simp] theorem State.reject_engine (s : State) (c : ErrCode) :
    (s.reject c).engine = s.engine := rfl

/-! A turn of the environment changes what waits and the turn counter. -/

@[simp] theorem State.takeTurn_phase (s : State) (rest : List Input) :
    (s.takeTurn rest).phase = s.phase := rfl
@[simp] theorem State.takeTurn_busy (s : State) (rest : List Input) :
    (s.takeTurn rest).busy = s.busy := rfl
@[simp] theorem State.takeTurn_variant (s : State) (rest : List Input) :
    (s.takeTurn rest).variant = s.variant := rfl
@[simp] theorem State.takeTurn_err (s : State) (rest : List Input) :
    (s.takeTurn rest).err = s.err := rfl
@[simp] theorem State.takeTurn_blkcnt (s : State) (rest : List Input) :
    (s.takeTurn rest).blkcnt = s.blkcnt := rfl
@[simp] theorem State.takeTurn_blk (s : State) (rest : List Input) :
    (s.takeTurn rest).blk = s.blk := rfl
@[simp] theorem State.takeTurn_h (s : State) (rest : List Input) :
    (s.takeTurn rest).h = s.h := rfl
@[simp] theorem State.takeTurn_l (s : State) (rest : List Input) :
    (s.takeTurn rest).l = s.l := rfl
@[simp] theorem State.takeTurn_inputs (s : State) (rest : List Input) :
    (s.takeTurn rest).inputs = rest := rfl
@[simp] theorem State.takeTurn_reads (s : State) (rest : List Input) :
    (s.takeTurn rest).reads = s.reads := rfl
@[simp] theorem State.takeTurn_reply (s : State) (rest : List Input) :
    (s.takeTurn rest).reply = s.reply := rfl
@[simp] theorem State.takeTurn_latencyLeft (s : State) (rest : List Input) :
    (s.takeTurn rest).latencyLeft = s.latencyLeft - 1 := rfl
@[simp] theorem State.takeTurn_draws (s : State) (rest : List Input) :
    (s.takeTurn rest).draws = s.draws := rfl
@[simp] theorem State.takeTurn_engine (s : State) (rest : List Input) :
    (s.takeTurn rest).engine = s.engine := rfl

/-! An answer of the port changes the answer only. -/

@[simp] theorem State.answer_phase (s : State) (r : Reply) :
    (s.answer r).phase = s.phase := rfl
@[simp] theorem State.answer_busy (s : State) (r : Reply) :
    (s.answer r).busy = s.busy := rfl
@[simp] theorem State.answer_variant (s : State) (r : Reply) :
    (s.answer r).variant = s.variant := rfl
@[simp] theorem State.answer_err (s : State) (r : Reply) :
    (s.answer r).err = s.err := rfl
@[simp] theorem State.answer_blkcnt (s : State) (r : Reply) :
    (s.answer r).blkcnt = s.blkcnt := rfl
@[simp] theorem State.answer_blk (s : State) (r : Reply) :
    (s.answer r).blk = s.blk := rfl
@[simp] theorem State.answer_h (s : State) (r : Reply) :
    (s.answer r).h = s.h := rfl
@[simp] theorem State.answer_l (s : State) (r : Reply) :
    (s.answer r).l = s.l := rfl
@[simp] theorem State.answer_inputs (s : State) (r : Reply) :
    (s.answer r).inputs = s.inputs := rfl
@[simp] theorem State.answer_reads (s : State) (r : Reply) :
    (s.answer r).reads = s.reads := rfl
@[simp] theorem State.answer_reply (s : State) (r : Reply) :
    (s.answer r).reply = some r := rfl
@[simp] theorem State.answer_latencyLeft (s : State) (r : Reply) :
    (s.answer r).latencyLeft = s.latencyLeft := rfl
@[simp] theorem State.answer_draws (s : State) (r : Reply) :
    (s.answer r).draws = s.draws := rfl
@[simp] theorem State.answer_engine (s : State) (r : Reply) :
    (s.answer r).engine = s.engine := rfl

/-! An RD result is recorded (R69). -/

@[simp] theorem State.recordRead_phase (s : State) (d : Word32) :
    (s.recordRead d).phase = s.phase := rfl
@[simp] theorem State.recordRead_busy (s : State) (d : Word32) :
    (s.recordRead d).busy = s.busy := rfl
@[simp] theorem State.recordRead_variant (s : State) (d : Word32) :
    (s.recordRead d).variant = s.variant := rfl
@[simp] theorem State.recordRead_err (s : State) (d : Word32) :
    (s.recordRead d).err = s.err := rfl
@[simp] theorem State.recordRead_blkcnt (s : State) (d : Word32) :
    (s.recordRead d).blkcnt = s.blkcnt := rfl
@[simp] theorem State.recordRead_blk (s : State) (d : Word32) :
    (s.recordRead d).blk = s.blk := rfl
@[simp] theorem State.recordRead_h (s : State) (d : Word32) :
    (s.recordRead d).h = s.h := rfl
@[simp] theorem State.recordRead_l (s : State) (d : Word32) :
    (s.recordRead d).l = s.l := rfl
@[simp] theorem State.recordRead_inputs (s : State) (d : Word32) :
    (s.recordRead d).inputs = s.inputs := rfl
@[simp] theorem State.recordRead_reads (s : State) (d : Word32) :
    (s.recordRead d).reads = s.reads ++ [d] := rfl
@[simp] theorem State.recordRead_reply (s : State) (d : Word32) :
    (s.recordRead d).reply = s.reply := rfl
@[simp] theorem State.recordRead_latencyLeft (s : State) (d : Word32) :
    (s.recordRead d).latencyLeft = s.latencyLeft := rfl
@[simp] theorem State.recordRead_draws (s : State) (d : Word32) :
    (s.recordRead d).draws = s.draws := rfl
@[simp] theorem State.recordRead_engine (s : State) (d : Word32) :
    (s.recordRead d).engine = s.engine := rfl

/-! An accepted INIT (R118). -/

@[simp] theorem State.startMessage_phase (s : State) (v : Variant) :
    (s.startMessage v).phase = .ready := rfl
@[simp] theorem State.startMessage_busy (s : State) (v : Variant) :
    (s.startMessage v).busy = s.busy := rfl
@[simp] theorem State.startMessage_variant (s : State) (v : Variant) :
    (s.startMessage v).variant = v := rfl
@[simp] theorem State.startMessage_err (s : State) (v : Variant) :
    (s.startMessage v).err = .none := rfl
@[simp] theorem State.startMessage_blkcnt (s : State) (v : Variant) :
    (s.startMessage v).blkcnt = 0#64 := rfl
@[simp] theorem State.startMessage_blk (s : State) (v : Variant) :
    (s.startMessage v).blk = s.blk := rfl
@[simp] theorem State.startMessage_h (s : State) (v : Variant) :
    (s.startMessage v).h = regsOfWorking (ivWorking v) := rfl
@[simp] theorem State.startMessage_l (s : State) (v : Variant) :
    (s.startMessage v).l = s.l := rfl
@[simp] theorem State.startMessage_inputs (s : State) (v : Variant) :
    (s.startMessage v).inputs = s.inputs := rfl
@[simp] theorem State.startMessage_reads (s : State) (v : Variant) :
    (s.startMessage v).reads = s.reads := rfl
@[simp] theorem State.startMessage_reply (s : State) (v : Variant) :
    (s.startMessage v).reply = s.reply := rfl
@[simp] theorem State.startMessage_latencyLeft (s : State) (v : Variant) :
    (s.startMessage v).latencyLeft = s.latencyLeft := rfl
@[simp] theorem State.startMessage_draws (s : State) (v : Variant) :
    (s.startMessage v).draws = s.draws := rfl
@[simp] theorem State.startMessage_engine (s : State) (v : Variant) :
    (s.startMessage v).engine = s.engine := rfl

/-! An accepted COMPRESS (R119). -/

@[simp] theorem State.acceptBlock_phase (s : State) :
    (s.acceptBlock).phase = s.phase := rfl
@[simp] theorem State.acceptBlock_busy (s : State) :
    (s.acceptBlock).busy = true := rfl
@[simp] theorem State.acceptBlock_variant (s : State) :
    (s.acceptBlock).variant = s.variant := rfl
@[simp] theorem State.acceptBlock_err (s : State) :
    (s.acceptBlock).err = s.err := rfl
@[simp] theorem State.acceptBlock_blkcnt (s : State) :
    (s.acceptBlock).blkcnt = s.blkcnt := rfl
@[simp] theorem State.acceptBlock_blk (s : State) :
    (s.acceptBlock).blk = s.blk := rfl
@[simp] theorem State.acceptBlock_h (s : State) :
    (s.acceptBlock).h = s.h := rfl
@[simp] theorem State.acceptBlock_l (s : State) :
    (s.acceptBlock).l = s.latchedBlock := rfl
@[simp] theorem State.acceptBlock_inputs (s : State) :
    (s.acceptBlock).inputs = s.inputs := rfl
@[simp] theorem State.acceptBlock_reads (s : State) :
    (s.acceptBlock).reads = s.reads := rfl
@[simp] theorem State.acceptBlock_reply (s : State) :
    (s.acceptBlock).reply = s.reply := rfl
@[simp] theorem State.acceptBlock_latencyLeft (s : State) :
    (s.acceptBlock).latencyLeft = Config.compressLatency s.engine s.draws := rfl
@[simp] theorem State.acceptBlock_draws (s : State) :
    (s.acceptBlock).draws = s.draws + 1 := rfl
@[simp] theorem State.acceptBlock_engine (s : State) :
    (s.acceptBlock).engine = s.engine := rfl

/-! An accepted FINAL (R120). -/

@[simp] theorem State.finishMessage_phase (s : State) :
    (s.finishMessage).phase = .done := rfl
@[simp] theorem State.finishMessage_busy (s : State) :
    (s.finishMessage).busy = s.busy := rfl
@[simp] theorem State.finishMessage_variant (s : State) :
    (s.finishMessage).variant = s.variant := rfl
@[simp] theorem State.finishMessage_err (s : State) :
    (s.finishMessage).err = s.err := rfl
@[simp] theorem State.finishMessage_blkcnt (s : State) :
    (s.finishMessage).blkcnt = s.blkcnt := rfl
@[simp] theorem State.finishMessage_blk (s : State) :
    (s.finishMessage).blk = s.blk := rfl
@[simp] theorem State.finishMessage_h (s : State) :
    (s.finishMessage).h = s.h := rfl
@[simp] theorem State.finishMessage_l (s : State) :
    (s.finishMessage).l = s.l := rfl
@[simp] theorem State.finishMessage_inputs (s : State) :
    (s.finishMessage).inputs = s.inputs := rfl
@[simp] theorem State.finishMessage_reads (s : State) :
    (s.finishMessage).reads = s.reads := rfl
@[simp] theorem State.finishMessage_reply (s : State) :
    (s.finishMessage).reply = s.reply := rfl
@[simp] theorem State.finishMessage_latencyLeft (s : State) :
    (s.finishMessage).latencyLeft = s.latencyLeft := rfl
@[simp] theorem State.finishMessage_draws (s : State) :
    (s.finishMessage).draws = s.draws := rfl
@[simp] theorem State.finishMessage_engine (s : State) :
    (s.finishMessage).engine = s.engine := rfl

/-! The COMPLETE step (R124). -/

@[simp] theorem State.complete_phase (s : State) :
    (s.complete).phase = s.phase := rfl
@[simp] theorem State.complete_busy (s : State) :
    (s.complete).busy = false := rfl
@[simp] theorem State.complete_variant (s : State) :
    (s.complete).variant = s.variant := rfl
@[simp] theorem State.complete_err (s : State) :
    (s.complete).err = s.err := rfl
@[simp] theorem State.complete_blkcnt (s : State) :
    (s.complete).blkcnt = s.blkcnt + 1#64 := rfl
@[simp] theorem State.complete_blk (s : State) :
    (s.complete).blk = s.blk := rfl
@[simp] theorem State.complete_h (s : State) :
    (s.complete).h = regsOfWorking (compress s.variant s.chainingValue s.latchedWords) := rfl
@[simp] theorem State.complete_l (s : State) :
    (s.complete).l = s.l := rfl
@[simp] theorem State.complete_inputs (s : State) :
    (s.complete).inputs = s.inputs := rfl
@[simp] theorem State.complete_reads (s : State) :
    (s.complete).reads = s.reads := rfl
@[simp] theorem State.complete_reply (s : State) :
    (s.complete).reply = s.reply := rfl
@[simp] theorem State.complete_latencyLeft (s : State) :
    (s.complete).latencyLeft = s.latencyLeft := rfl
@[simp] theorem State.complete_draws (s : State) :
    (s.complete).draws = s.draws := rfl
@[simp] theorem State.complete_engine (s : State) :
    (s.complete).engine = s.engine := rfl

/-! The reset event (R170). -/

@[simp] theorem State.applyReset_phase (s : State) (cut : Option Access) (rest : List Input) :
    (s.applyReset cut rest).phase = .idle := rfl
@[simp] theorem State.applyReset_busy (s : State) (cut : Option Access) (rest : List Input) :
    (s.applyReset cut rest).busy = false := rfl
@[simp] theorem State.applyReset_variant (s : State) (cut : Option Access) (rest : List Input) :
    (s.applyReset cut rest).variant = .sha256 := rfl
@[simp] theorem State.applyReset_err (s : State) (cut : Option Access) (rest : List Input) :
    (s.applyReset cut rest).err = .none := rfl
@[simp] theorem State.applyReset_blkcnt (s : State) (cut : Option Access) (rest : List Input) :
    (s.applyReset cut rest).blkcnt = 0#64 := rfl
@[simp] theorem State.applyReset_blk (s : State) (cut : Option Access) (rest : List Input) :
    (s.applyReset cut rest).blk = [] := rfl
@[simp] theorem State.applyReset_h (s : State) (cut : Option Access) (rest : List Input) :
    (s.applyReset cut rest).h = Vector.replicate 8 0#64 := rfl
@[simp] theorem State.applyReset_l (s : State) (cut : Option Access) (rest : List Input) :
    (s.applyReset cut rest).l = Vector.replicate 16 0#64 := rfl
@[simp] theorem State.applyReset_inputs (s : State) (cut : Option Access) (rest : List Input) :
    (s.applyReset cut rest).inputs = rest := rfl
@[simp] theorem State.applyReset_reads (s : State) (cut : Option Access) (rest : List Input) :
    (s.applyReset cut rest).reads = s.reads := rfl
@[simp] theorem State.applyReset_latencyLeft (s : State) (cut : Option Access) (rest : List Input) :
    (s.applyReset cut rest).latencyLeft = 0 := rfl

end Sys2Proof.Machine
end

