-- ==== Sys2Proof/Laws/Memory.lean ====
section
/-! SUPPORT. The laws of BLK as canonical byte memory: read after write, nothing else changes, every write keeps the canonical form, and canonical memories that read alike are equal. -/

namespace Sys2Proof.Machine

theorem Memory.wfAbove_mono {m : Memory} {lo lo' : Nat} (h : Memory.wfAbove lo m = true) (hl : lo' ≤ lo) :
    Memory.wfAbove lo' m = true := by
  cases m with
  | nil => rfl
  | cons c rest =>
    obtain ⟨k, b⟩ := c
    simp only [Memory.wfAbove, Bool.and_eq_true, decide_eq_true_eq] at h ⊢
    exact ⟨⟨by omega, h.1.2⟩, h.2⟩

theorem Memory.read_of_wfAbove_lt {m : Memory} {lo a : Nat} (h : Memory.wfAbove lo m = true) (ha : a < lo) :
    m.read a = 0#8 := by
  induction m generalizing lo with
  | nil => rfl
  | cons c rest ih =>
    obtain ⟨k, b⟩ := c
    simp only [Memory.wfAbove, Bool.and_eq_true, decide_eq_true_eq] at h
    simp only [Memory.read]
    rw [if_neg (by omega)]
    exact ih h.2 (by omega)

/-- A read after a write in a canonical memory. -/
theorem Memory.read_write_above {m : Memory} {lo : Nat} (h : Memory.wfAbove lo m = true) (a : Nat) (v : Byte)
    (x : Nat) : (m.write a v).read x = if x = a then v else m.read x := by
  induction m generalizing lo with
  | nil =>
    by_cases hv : v = 0#8 <;> by_cases hx : x = a <;>
      simp [Memory.write, Memory.read, hv, hx, @eq_comm _ a]
  | cons c rest ih =>
    obtain ⟨k, b⟩ := c
    simp only [Memory.wfAbove, Bool.and_eq_true, decide_eq_true_eq] at h
    have hr : ∀ y, y ≤ k → Memory.read rest y = 0#8 := fun y hy => Memory.read_of_wfAbove_lt h.2 (by omega)
    simp only [Memory.write]
    split
    · split
      · rename_i hak hv
        by_cases hx : x = a
        · subst hx; simp [Memory.read, hv, hr x (by omega), show k ≠ x by omega]
        · simp [hx]
      · by_cases hx : x = a
        · subst hx; simp [Memory.read]
        · simp [Memory.read, hx, Ne.symm hx]
    · split
      · rename_i _ hak
        subst hak
        split
        · rename_i hv
          by_cases hx : x = a
          · subst hx; simp [hv, hr x (by omega)]
          · simp [Memory.read, hx, Ne.symm hx]
        · by_cases hx : x = a
          · subst hx; simp [Memory.read]
          · simp [Memory.read, hx, Ne.symm hx]
      · simp only [Memory.read, ih h.2]
        by_cases hx : x = a
        · subst hx; simp [show k ≠ x by omega]
        · simp [hx]

theorem Memory.read_write {m : Memory} (h : m.wf = true) (a : Nat) (v : Byte) (x : Nat) :
    (m.write a v).read x = if x = a then v else m.read x := Memory.read_write_above h a v x

theorem Memory.wfAbove_write {m : Memory} {lo : Nat} (h : Memory.wfAbove lo m = true) {a : Nat} (ha : lo ≤ a)
    (v : Byte) : Memory.wfAbove lo (m.write a v) = true := by
  induction m generalizing lo with
  | nil =>
    by_cases hv : v = 0#8 <;> simp [Memory.write, Memory.wfAbove, hv, ha]
  | cons c rest ih =>
    obtain ⟨k, b⟩ := c
    simp only [Memory.wfAbove, Bool.and_eq_true, decide_eq_true_eq] at h
    simp only [Memory.write]
    split
    · split
      · simp only [Memory.wfAbove, Bool.and_eq_true, decide_eq_true_eq]; exact h
      · rename_i hak hv
        simp only [Memory.wfAbove, Bool.and_eq_true, decide_eq_true_eq]
        exact ⟨⟨ha, hv⟩, ⟨by omega, h.1.2⟩, h.2⟩
    · split
      · rename_i _ hak
        split
        · exact Memory.wfAbove_mono h.2 (by omega)
        · rename_i hv
          simp only [Memory.wfAbove, Bool.and_eq_true, decide_eq_true_eq]
          exact ⟨⟨ha, hv⟩, hak ▸ h.2⟩
      · simp only [Memory.wfAbove, Bool.and_eq_true, decide_eq_true_eq]
        exact ⟨h.1, ih h.2 (by omega)⟩

/-- A byte write keeps the canonical form. -/
theorem Memory.wf_write {m : Memory} (h : m.wf = true) (a : Nat) (v : Byte) : (m.write a v).wf = true :=
  Memory.wfAbove_write h (Nat.zero_le a) v

theorem Memory.mem_write {m : Memory} {a : Nat} {v : Byte} {c : Host.Cell} (hc : c ∈ m.write a v) :
    c ∈ m ∨ c.1 = a := by
  induction m with
  | nil =>
    by_cases hv : v = 0#8 <;> simp [Memory.write, hv] at hc
    exact .inr (by rw [hc])
  | cons d rest ih =>
    obtain ⟨k, b⟩ := d
    simp only [Memory.write] at hc
    split at hc
    · split at hc
      · exact .inl hc
      · rcases List.mem_cons.1 hc with rfl | hc
        · exact .inr rfl
        · exact .inl hc
    · split at hc
      · split at hc
        · exact .inl (List.mem_cons_of_mem _ hc)
        · rcases List.mem_cons.1 hc with rfl | hc
          · exact .inr rfl
          · exact .inl (List.mem_cons_of_mem _ hc)
      · rcases List.mem_cons.1 hc with rfl | hc
        · exact .inl List.mem_cons_self
        · exact (ih hc).imp_left (List.mem_cons_of_mem _)

/-- A byte write inside BLK lists nothing outside BLK. -/
theorem Memory.onlyBlk_write {m : Memory} (h : m.onlyBlk = true) {a : Nat} (v : Byte)
    (ha : Config.blkBase ≤ a ∧ a < Config.blkBase + Config.blkBytes) : (m.write a v).onlyBlk = true := by
  simp only [Memory.onlyBlk, List.all_eq_true, Bool.and_eq_true, decide_eq_true_eq] at h ⊢
  intro c hc
  rcases Memory.mem_write hc with hm | rfl
  · exact h c hm
  · exact ha

/-- A BLK word write keeps the canonical form. -/
theorem Memory.wf_storeWord {m : Memory} (h : m.wf = true) (k : Nat) (v : Word32) :
    (m.storeWord k v).wf = true :=
  Memory.wf_write (Memory.wf_write (Memory.wf_write (Memory.wf_write h _ _) _ _) _ _) _ _

/-- A BLK word write stays inside BLK. -/
theorem Memory.onlyBlk_storeWord {m : Memory} (h : m.onlyBlk = true) {k : Nat} (hk : k < 32) (v : Word32) :
    (m.storeWord k v).onlyBlk = true := by
  have hb : Config.blkBytes = 128 := rfl
  refine Memory.onlyBlk_write (Memory.onlyBlk_write (Memory.onlyBlk_write (Memory.onlyBlk_write h _ ?_) _ ?_) _ ?_) _ ?_ <;>
    omega

/-- What every byte reads after a BLK word write: the four bytes of the word, and every other byte as
before. -/
theorem Memory.read_storeWord {m : Memory} (h : m.wf = true) (k : Nat) (v : Word32) (x : Nat) :
    (m.storeWord k v).read x =
      if x = Config.blkBase + 4 * k then v.extractLsb' 24 8
      else if x = Config.blkBase + 4 * k + 1 then v.extractLsb' 16 8
      else if x = Config.blkBase + 4 * k + 2 then v.extractLsb' 8 8
      else if x = Config.blkBase + 4 * k + 3 then v.extractLsb' 0 8
      else m.read x := by
  have h1 := Memory.wf_write h (Config.blkBase + 4 * k) (v.extractLsb' 24 8)
  have h2 := Memory.wf_write h1 (Config.blkBase + 4 * k + 1) (v.extractLsb' 16 8)
  have h3 := Memory.wf_write h2 (Config.blkBase + 4 * k + 2) (v.extractLsb' 8 8)
  simp only [Memory.storeWord]
  rw [Memory.read_write h3, Memory.read_write h2, Memory.read_write h1, Memory.read_write h]
  split_ifs <;> first | rfl | omega

/-- Two canonical memories that read alike everywhere are equal data. -/
theorem Memory.eq_of_read_eq {m m' : Memory} {lo : Nat} (h : Memory.wfAbove lo m = true)
    (h' : Memory.wfAbove lo m' = true) (hr : ∀ a, m.read a = m'.read a) : m = m' := by
  induction m generalizing m' lo with
  | nil =>
    cases m' with
    | nil => rfl
    | cons c rest =>
      obtain ⟨k, b⟩ := c
      simp only [Memory.wfAbove, Bool.and_eq_true, decide_eq_true_eq] at h'
      exact absurd (by simpa [Memory.read] using (hr k).symm) h'.1.2
  | cons c rest ih =>
    obtain ⟨k, b⟩ := c
    simp only [Memory.wfAbove, Bool.and_eq_true, decide_eq_true_eq] at h
    cases m' with
    | nil => exact absurd (by simpa [Memory.read] using hr k) h.1.2
    | cons c' rest' =>
      obtain ⟨k', b'⟩ := c'
      simp only [Memory.wfAbove, Bool.and_eq_true, decide_eq_true_eq] at h'
      have hk : k = k' := by
        by_contra hne
        rcases Nat.lt_or_gt_of_ne hne with hlt | hlt
        · have := hr k
          simp only [Memory.read, if_true, if_neg (Ne.symm hne),
            Memory.read_of_wfAbove_lt h'.2 (show k < k' + 1 by omega)] at this
          exact h.1.2 this
        · have := hr k'
          simp only [Memory.read, if_true, if_neg hne,
            Memory.read_of_wfAbove_lt h.2 (show k' < k + 1 by omega)] at this
          exact h'.1.2 this.symm
      subst hk
      have hb : b = b' := by simpa [Memory.read] using hr k
      subst hb
      refine congrArg _ (ih h.2 h'.2 fun a => ?_)
      have := hr a
      simp only [Memory.read] at this
      by_cases hak : k = a
      · subst hak
        rw [Memory.read_of_wfAbove_lt h.2 (by omega), Memory.read_of_wfAbove_lt h'.2 (by omega)]
      · simpa [hak] using this

end Sys2Proof.Machine
end

