-- ==== Sys2Proof/Laws/Step.lean ====
section
/-! SUPPORT. What each shared operation can do, said once: a command, a bus write, a turn of the environment, a step. Later proofs cite these and unfold nothing. -/

namespace Sys2Proof.Machine

/-- A command is accepted with its effect, or rejected with a code (R126, R153). -/
theorem exec_cases (i : Instr) (s : State) :
    (i = .nop ∧ exec i s = .next s) ∨
    (∃ v, i = .init v ∧ s.busy = false ∧ exec i s = .next (s.startMessage v)) ∨
    (i = .compress ∧ s.busy = false ∧ s.phase = .ready ∧ exec i s = .next s.acceptBlock) ∨
    (i = .final ∧ s.busy = false ∧ s.phase = .ready ∧ s.blkcnt ≠ 0#64 ∧ exec i s = .next s.finishMessage) ∨
    (i ≠ .nop ∧ s.busy = true ∧ exec i s = .next (s.reject .busy)) ∨
    ((i = .compress ∨ i = .final) ∧ s.busy = false ∧ s.phase ≠ .ready ∧ exec i s = .next (s.reject .badPhase)) ∨
    (i = .final ∧ s.busy = false ∧ s.phase = .ready ∧ s.blkcnt = 0#64 ∧ exec i s = .next (s.reject .noBlock)) := by
  cases i <;> by_cases hb : s.busy = true <;> by_cases hp : s.phase = .ready <;>
    by_cases hn : s.blkcnt = 0#64 <;> simp [exec, execNop, execInit, execCompress, execFinal, hb, hp, hn]

/-- Every command answers a next state. -/
theorem exec_next (i : Instr) (s : State) : ∃ t, exec i s = .next t := by
  rcases exec_cases i s with ⟨_, h⟩ | ⟨_, _, _, h⟩ | ⟨_, _, _, h⟩ | ⟨_, _, _, _, h⟩ | ⟨_, _, h⟩ | ⟨_, _, _, h⟩ | ⟨_, _, _, _, h⟩ <;>
    exact ⟨_, h⟩

/-- An accepted command is executed by the rule of its opcode (R115, R126). -/
theorem accepts_iff (i : Instr) (s : State) :
    accepts s i = true ↔
      i = .nop ∨ ((∃ v, i = .init v) ∧ s.busy = false) ∨
      (i = .compress ∧ s.busy = false ∧ s.phase = .ready) ∨
      (i = .final ∧ s.busy = false ∧ s.phase = .ready ∧ s.blkcnt ≠ 0#64) := by
  cases i <;> simp [accepts, and_assoc]

/-- A CMD write is a command or a rejection; it always answers a next state (R115, R153). -/
theorem commandWrite_cases (s : State) (c : Word32) :
    (∃ i, decode c = .command i ∧ commandWrite s c = exec i s) ∨
    (∃ e, decode c = .illegal e ∧ commandWrite s c = .next (s.reject (ErrCode.ofDecodeError e))) := by
  unfold commandWrite
  cases h : decode c with
  | command i => exact .inl ⟨i, rfl, rfl⟩
  | illegal e => exact .inr ⟨e, rfl, rfl⟩

/-- The only offset of CMD (R43). -/
theorem locate_eq_cmd {off : Offset} (h : locate off = .cmd) : off = Config.cmdOffset := by
  simp only [locate] at h
  repeat' split at h
  all_goals first | contradiction | skip
  rename_i h4
  exact BitVec.eq_of_toNat_eq h4

@[simp] theorem locate_cmdOffset : locate Config.cmdOffset = .cmd := by decide

/-- A bus write is a CMD write, a BLK write, or a bus error (R45, R47). -/
theorem memWrite_cases (s : State) (off : Offset) (v : Word32) :
    (off = Config.cmdOffset ∧ memWrite s off v = commandWrite s v) ∨
    (∃ k : Fin 32, locate off = .blkWord k ∧ memWrite s off v = .next (s.storeBlkWord k.val v)) ∨
    (locate off ≠ .cmd ∧ memWrite s off v = .fault (.busError off)) := by
  unfold memWrite
  cases h : locate off with
  | cmd => exact .inl ⟨locate_eq_cmd h, rfl⟩
  | blkWord k => exact .inr (.inl ⟨k, rfl, rfl⟩)
  | _ => exact .inr (.inr ⟨by simp, rfl⟩)

/-- Two states whose engines agree: only the environment's side and the turn counter may differ. -/
structure SameEngine (s t : State) : Prop where
  phase : t.phase = s.phase
  busy : t.busy = s.busy
  variant : t.variant = s.variant
  err : t.err = s.err
  blkcnt : t.blkcnt = s.blkcnt
  blk : t.blk = s.blk
  h : t.h = s.h
  l : t.l = s.l
  draws : t.draws = s.draws
  engine : t.engine = s.engine

theorem SameEngine.refl (s : State) : SameEngine s s := ⟨rfl, rfl, rfl, rfl, rfl, rfl, rfl, rfl, rfl, rfl⟩

/-- The state a command or a BLK write is applied to: the turn has begun and the write is acknowledged. -/
def State.writeTurn (s : State) (rest : List Input) : State := (s.takeTurn rest).answer writeAck

theorem State.writeTurn_same (s : State) (rest : List Input) : SameEngine s (s.writeTurn rest) :=
  ⟨rfl, rfl, rfl, rfl, rfl, rfl, rfl, rfl, rfl, rfl⟩

@[simp] theorem State.writeTurn_latencyLeft (s : State) (rest : List Input) :
    (s.writeTurn rest).latencyLeft = s.latencyLeft - 1 := rfl

/-- What a write on the port can do. -/
theorem write_turn_cases {s t : State} {rest : List Input} {off : Offset} {c : Word32}
    (h : transact (s.takeTurn rest) (.write off c) = .next t) :
    (∃ i, off = Config.cmdOffset ∧ decode c = .command i ∧ exec i (s.writeTurn rest) = .next t) ∨
    (∃ e, off = Config.cmdOffset ∧ decode c = .illegal e ∧
      t = (s.writeTurn rest).reject (ErrCode.ofDecodeError e)) ∨
    (∃ k : Fin 32, off ≠ Config.cmdOffset ∧ locate off = .blkWord k ∧
      t = (s.writeTurn rest).storeBlkWord k.val c) := by
  change memWrite (s.writeTurn rest) off c = .next t at h
  rcases memWrite_cases (s.writeTurn rest) off c with ⟨ho, hm⟩ | ⟨k, hl, hm⟩ | ⟨_, hm⟩
  · rw [hm] at h
    rcases commandWrite_cases (s.writeTurn rest) c with ⟨i, hi, hc⟩ | ⟨e, he, hc⟩
    · exact .inl ⟨i, ho, hi, hc ▸ h⟩
    · rw [hc] at h
      exact .inr (.inl ⟨e, ho, he, (Host.Outcome.next.inj h).symm⟩)
  · rw [hm] at h
    refine .inr (.inr ⟨k, ?_, hl, (Host.Outcome.next.inj h).symm⟩)
    rintro rfl
    simp at hl
  · rw [hm] at h
    cases h

/-- A read leaves the engine as it was. -/
theorem read_turn_same {s t : State} {rest : List Input} {off : Offset}
    (h : transact (s.takeTurn rest) (.read off) = .next t) :
    SameEngine s t ∧ t.latencyLeft = s.latencyLeft - 1 := by
  simp only [transact] at h
  split at h
  · cases h; exact ⟨⟨rfl, rfl, rfl, rfl, rfl, rfl, rfl, rfl, rfl, rfl⟩, rfl⟩
  · cases h

/-- An access to an offset of the map that errs is no write to CMD. -/
theorem cmd_write_never_faults (s : State) (c : Word32) (r : Fault) :
    transact s (.write Config.cmdOffset c) ≠ .fault r := by
  simp only [transact, memWrite, locate_cmdOffset]
  rcases commandWrite_cases (s.answer writeAck) c with ⟨i, _, hc⟩ | ⟨e, _, hc⟩
  · obtain ⟨u, hu⟩ := exec_next i (s.answer writeAck)
    rw [hc, hu]; simp
  · rw [hc]; simp

/-- The next input is this write. -/
def WriteWaits (s : State) (off : Offset) (c : Word32) (rest : List Input) : Prop :=
  s.inputs = .stmt (.wr off c) :: rest ∨ s.inputs = .access (.write off c) :: rest

/-- What an environment's turn other than a reset can do. -/
def EnvironmentEffect (s t : State) : Prop :=
  (SameEngine s t ∧ t.latencyLeft = s.latencyLeft - 1 ∧ s.commandNext = none) ∨
  (∃ i c rest, WriteWaits s Config.cmdOffset c rest ∧ decode c = .command i ∧ s.commandNext = some i ∧
    exec i (s.writeTurn rest) = .next t) ∨
  (∃ e c rest, WriteWaits s Config.cmdOffset c rest ∧ decode c = .illegal e ∧ s.commandNext = none ∧
    t = (s.writeTurn rest).reject (ErrCode.ofDecodeError e)) ∨
  (∃ (k : Fin 32) (off : Offset) (c : Word32) (rest : List Input), locate off = .blkWord k ∧
    WriteWaits s off c rest ∧ s.commandNext = none ∧ t = (s.writeTurn rest).storeBlkWord k.val c)

theorem write_turn_effect {s t : State} {rest : List Input} {off : Offset} {c : Word32}
    (h : transact (s.takeTurn rest) (.write off c) = .next t)
    (hc : s.commandNext = writtenCommand off c) (hi : WriteWaits s off c rest) :
    EnvironmentEffect s t := by
  rcases write_turn_cases h with ⟨i, ho, hd, hx⟩ | ⟨e, ho, hd, hx⟩ | ⟨k, ho, hl, hx⟩
  · exact .inr (.inl ⟨i, c, rest, ho ▸ hi, hd, by simp [hc, writtenCommand, ho, hd], hx⟩)
  · exact .inr (.inr (.inl ⟨e, c, rest, ho ▸ hi, hd, by simp [hc, writtenCommand, ho, hd], hx⟩))
  · exact .inr (.inr (.inr ⟨k, off, c, rest, hl, hi, by simp [hc, writtenCommand, ho], hx⟩))

/-- What one step can do: COMPLETE; a reset; or, on the environment's turn, nothing to the engine, a
command, the rejection of a word that is no command, or a BLK write. -/
theorem step_cases {s t : State} (h : step s = .next t) :
    (s.engineTurn = true ∧ t = s.complete) ∨
    (s.engineTurn = false ∧ ∃ cut rest, s.inputs = .reset cut :: rest ∧ t = s.applyReset cut rest) ∨
    (s.engineTurn = false ∧ s.resetNext = false ∧ EnvironmentEffect s t) := by
  unfold step at h
  split at h
  · rename_i he
    exact .inl ⟨he, (Host.Outcome.next.inj h).symm⟩
  rename_i he
  have he : s.engineTurn = false := by simpa using he
  right
  unfold environmentTurn at h
  split at h
  · rename_i hi
    cases h
    exact .inr ⟨he, by simp [State.resetNext, hi],
      .inl ⟨⟨rfl, rfl, rfl, rfl, rfl, rfl, rfl, rfl, rfl, rfl⟩, rfl, by simp [State.commandNext, he, hi]⟩⟩
  · rename_i off c rest hi
    exact .inr ⟨he, by simp [State.resetNext, hi],
      write_turn_effect h (by simp [State.commandNext, he, hi]) (.inl hi)⟩
  · rename_i off rest hi
    refine .inr ⟨he, by simp [State.resetNext, hi], .inl ?_⟩
    simp only [readStmt] at h
    split at h
    · cases h
      exact ⟨⟨rfl, rfl, rfl, rfl, rfl, rfl, rfl, rfl, rfl, rfl⟩, rfl, by simp [State.commandNext, he, hi]⟩
    · cases h
  · rename_i off mask value rest hi
    refine .inr ⟨he, by simp [State.resetNext, hi], .inl ?_⟩
    simp only [pollStmt] at h
    split at h
    · split at h <;> cases h <;>
        exact ⟨⟨rfl, rfl, rfl, rfl, rfl, rfl, rfl, rfl, rfl, rfl⟩, rfl, by simp [State.commandNext, he, hi]⟩
    · cases h
  · rename_i a rest hi
    refine .inr ⟨he, by simp [State.resetNext, hi], ?_⟩
    cases hx : transact (s.takeTurn rest) a with
    | next t' =>
      simp only [bareAccess, hx] at h
      cases h
      cases a with
      | read off =>
        exact .inl ⟨(read_turn_same hx).1, (read_turn_same hx).2, by simp [State.commandNext, he, hi]⟩
      | write off c =>
        exact write_turn_effect hx (by simp [State.commandNext, he, hi]) (.inr hi)
    | fault r =>
      cases r with
      | busError o =>
        simp only [bareAccess, hx] at h
        cases h
        refine .inl ⟨⟨rfl, rfl, rfl, rfl, rfl, rfl, rfl, rfl, rfl, rfl⟩, rfl, ?_⟩
        cases a with
        | read off => simp [State.commandNext, he, hi]
        | write off c =>
          have ho : off ≠ Config.cmdOffset := fun ho =>
            cmd_write_never_faults (s.takeTurn rest) c _ (ho ▸ hx)
          simp [State.commandNext, he, hi, writtenCommand, ho]
    | refused r =>
      simp only [bareAccess, hx] at h
      cases h
  · rename_i cut rest hi
    cases h
    exact .inl ⟨he, cut, rest, hi, rfl⟩

/-- On the engine's turn no reset and no command happens, and a compression is in flight. -/
theorem engineTurn_excludes {s : State} (h : s.engineTurn = true) :
    s.busy = true ∧ s.latencyLeft = 0 ∧ s.resetNext = false ∧ s.commandNext = none := by
  refine ⟨?_, ?_, ?_, by simp [State.commandNext, h]⟩ <;> simp [State.engineTurn] at h <;> simp [h]

/-- A reset that waits first is next, and no command is. -/
theorem resetNext_of_inputs {s : State} {cut : Option Access} {rest : List Input}
    (h : s.inputs = .reset cut :: rest) : s.resetNext = true ∧ s.commandNext = none :=
  ⟨by simp [State.resetNext, h], by simp [State.commandNext, h]⟩

/-- Without a command nothing is accepted. -/
theorem acceptedNext_of_none {s : State} (h : s.commandNext = none) :
    s.acceptedNext = none ∧ s.initNext = false := by
  simp [State.acceptedNext, State.initNext, h]

theorem acceptedNext_of_some {s : State} {i : Instr} (h : s.commandNext = some i) :
    s.acceptedNext = if accepts s i then some i else none := by
  simp [State.acceptedNext, h]

/-- The turn's preparation does not change what is accepted. -/
@[simp] theorem accepts_writeTurn (s : State) (rest : List Input) (i : Instr) :
    accepts (s.writeTurn rest) i = accepts s i := by
  cases i <;> rfl

/-- What a command does when it is accepted. -/
def commandEffect (s : State) : Instr → State
  | .nop => s
  | .init v => s.startMessage v
  | .compress => s.acceptBlock
  | .final => s.finishMessage

/-- The turn's preparation does not change what a word is rejected with. -/
@[simp] theorem rejectionCode_writeTurn (s : State) (rest : List Input) (c : Word32) :
    rejectionCode (s.writeTurn rest) c = rejectionCode s c := by
  unfold rejectionCode
  simp only [accepts_writeTurn]
  rfl

/-- An accepted command has its effect; any other changes ERR only, to the code of R153. -/
theorem exec_accepted_or_rejected (i : Instr) (s : State) :
    (accepts s i = true ∧ exec i s = .next (commandEffect s i)) ∨
    (accepts s i = false ∧ ∃ e, e ≠ .none ∧ (∀ c, decode c = .command i → rejectionCode s c = some e) ∧
      exec i s = .next (s.reject e)) := by
  rcases exec_cases i s with ⟨hv, e⟩ | ⟨v, hv, hb, e⟩ | ⟨hv, hb, hp, e⟩ | ⟨hv, hb, hp, hn, e⟩ |
      ⟨hv, hb, e⟩ | ⟨hv, hb, hp, e⟩ | ⟨hv, hb, hp, hn, e⟩
  · exact .inl ⟨by simp [hv, accepts], by rw [e, hv]; rfl⟩
  · exact .inl ⟨by simp [hv, accepts, hb], by rw [e, hv]; rfl⟩
  · exact .inl ⟨by simp [hv, accepts, hb, hp], by rw [e, hv]; rfl⟩
  · exact .inl ⟨by simp [hv, accepts, hb, hp, hn], by rw [e, hv]; rfl⟩
  · have ha : accepts s i = false := by cases i <;> simp_all [accepts]
    exact .inr ⟨ha, _, by simp, fun c hc => by simp [rejectionCode, hc, ha, hb], e⟩
  · have ha : accepts s i = false := by rcases hv with rfl | rfl <;> simp [accepts, hp]
    exact .inr ⟨ha, _, by simp, fun c hc => by simp [rejectionCode, hc, ha, hb, hp], e⟩
  · have ha : accepts s i = false := by simp [hv, accepts, hn]
    exact .inr ⟨ha, _, by simp, fun c hc => by simp [rejectionCode, hc, ha, hb, hp], e⟩

/-- What one step is, in the terms of the writer rules: COMPLETE; a reset; a turn that leaves the engine,
rejects, or writes a BLK word; or an accepted command with its effect. -/
theorem step_effects {s t : State} (hs : step s = .next t) :
    (s.engineTurn = true ∧ s.resetNext = false ∧ s.acceptedNext = none ∧ s.initNext = false ∧
      t = s.complete) ∨
    (s.engineTurn = false ∧ s.resetNext = true ∧ s.acceptedNext = none ∧ s.initNext = false ∧
      ∃ cut rest, s.inputs = .reset cut :: rest ∧ t = s.applyReset cut rest) ∨
    (s.engineTurn = false ∧ s.resetNext = false ∧ s.acceptedNext = none ∧ s.initNext = false ∧
      ∃ u, SameEngine s u ∧ u.latencyLeft = s.latencyLeft - 1 ∧
        (t = u ∨
         (∃ (e : ErrCode) (c : Word32) (rest : List Input), WriteWaits s Config.cmdOffset c rest ∧
           rejectionCode s c = some e ∧ e ≠ .none ∧ t = u.reject e) ∨
         (∃ (k : Fin 32) (off : Offset) (c : Word32) (rest : List Input), locate off = .blkWord k ∧
           WriteWaits s off c rest ∧ t = u.storeBlkWord k.val c))) ∨
    (s.engineTurn = false ∧ s.resetNext = false ∧
      ∃ i u, s.acceptedNext = some i ∧ accepts s i = true ∧ SameEngine s u ∧
        u.latencyLeft = s.latencyLeft - 1 ∧ t = commandEffect u i) := by
  rcases step_cases hs with ⟨he, rfl⟩ | ⟨he, cut, rest, hi, rfl⟩ |
      ⟨he, hr, ⟨e, hl, hc⟩ | ⟨i, w, rest, hw, hd, hc, hx⟩ | ⟨e, w, rest, hw, hd, hc, rfl⟩ | ⟨k, off, c, rest, hk, hw, hc, rfl⟩⟩
  · obtain ⟨_, _, hr, hc⟩ := engineTurn_excludes he
    exact .inl ⟨he, hr, (acceptedNext_of_none hc).1, (acceptedNext_of_none hc).2, rfl⟩
  · obtain ⟨hr, hc⟩ := resetNext_of_inputs hi
    exact .inr (.inl ⟨he, hr, (acceptedNext_of_none hc).1, (acceptedNext_of_none hc).2, cut, rest, hi, rfl⟩)
  · exact .inr (.inr (.inl ⟨he, hr, (acceptedNext_of_none hc).1, (acceptedNext_of_none hc).2,
      t, e, hl, .inl rfl⟩))
  · rcases exec_accepted_or_rejected i (s.writeTurn rest) with ⟨ha, e⟩ | ⟨ha, c, hne, hr', e⟩ <;>
      (rw [e] at hx; cases hx; rw [accepts_writeTurn] at ha)
    · exact .inr (.inr (.inr ⟨he, hr, i, _, by rw [acceptedNext_of_some hc, ha]; rfl, ha,
        s.writeTurn_same rest, rfl, rfl⟩))
    · have hn : s.acceptedNext = none := by rw [acceptedNext_of_some hc, ha]; rfl
      exact .inr (.inr (.inl ⟨he, hr, hn, by simp [State.initNext, hn], _, s.writeTurn_same rest, rfl,
        .inr (.inl ⟨c, w, rest, hw, by simpa using hr' w hd, hne, rfl⟩)⟩))
  · refine .inr (.inr (.inl ⟨he, hr, (acceptedNext_of_none hc).1, (acceptedNext_of_none hc).2, _,
      s.writeTurn_same rest, rfl, .inr (.inl ⟨_, w, rest, hw, ?_, ?_, rfl⟩)⟩))
    · cases e <;> simp [rejectionCode, hd, ErrCode.ofDecodeError]
    · cases e <;> simp [ErrCode.ofDecodeError]
  · exact .inr (.inr (.inl ⟨he, hr, (acceptedNext_of_none hc).1, (acceptedNext_of_none hc).2, _,
      s.writeTurn_same rest, rfl, .inr (.inr ⟨k, off, c, rest, hk, hw, rfl⟩)⟩))

/-- No step changes which engine of a system this is. -/
theorem step_engine {s t : State} (hs : step s = .next t) : t.engine = s.engine := by
  rcases step_effects hs with ⟨_, _, _, _, rfl⟩ | ⟨_, _, _, _, cut, rest, _, rfl⟩ |
    ⟨_, _, _, _, u, hu, _, rfl | ⟨e, c, rest, _, _, _, rfl⟩ | ⟨k, off, c, rest, _, _, rfl⟩⟩ | ⟨_, _, i, u, _, _, hu, _, rfl⟩
  · rfl
  · rfl
  · exact hu.engine
  · exact hu.engine
  · exact hu.engine
  · cases i <;> exact hu.engine

/-- A command is rejected exactly with the code that the checks give (R153). -/
theorem commandWrite_rejected {s : State} {c : Word32} {e : ErrCode} (h : rejectionCode s c = some e) :
    commandWrite s c = .next (s.reject e) := by
  unfold rejectionCode at h
  unfold commandWrite
  cases hd : decode c with
  | illegal x => cases x <;> simp_all [ErrCode.ofDecodeError]
  | command i =>
    simp only [hd] at h
    rcases exec_cases i s with ⟨hv, x⟩ | ⟨v, hv, hb, x⟩ | ⟨hv, hb, hp, x⟩ | ⟨hv, hb, hp, hn, x⟩ |
      ⟨hv, hb, x⟩ | ⟨hv, hb, hp, x⟩ | ⟨hv, hb, hp, hn, x⟩ <;> simp_all [accepts]

end Sys2Proof.Machine
end

