-- ==== Sys2Proof/Laws/Bus.lean ====
section
/-! SUPPORT. The register map: which offset stands where, in both directions, and what that makes admitted. -/

namespace Sys2Proof.Machine

theorem locate_blkWord : ∀ k : Fin 32, locate (BitVec.ofNat 10 (0x100 + 4 * k.val)) = .blkWord k := by
  decide

theorem locate_digestWord : ∀ k : Fin 16, locate (BitVec.ofNat 10 (0x200 + 4 * k.val)) = .digestWord k := by
  decide

/-- What a location says about its offset (R43, R44, R45). -/
def Location.Fits (off : Offset) : Location → Bool
  | .id => off.toNat == 0x000
  | .cmd => off.toNat == 0x004
  | .status => off.toNat == 0x008
  | .blkcntLo => off.toNat == 0x00C
  | .blkcntHi => off.toNat == 0x010
  | .blkWord k => off.toNat == 0x100 + 4 * k.val
  | .digestWord k => off.toNat == 0x200 + 4 * k.val
  | .unmapped => off.toNat % 4 == 0 && (decide (0x014 ≤ off.toNat ∧ off.toNat ≤ 0x0FF)
      || decide (0x180 ≤ off.toNat ∧ off.toNat ≤ 0x1FF) || decide (0x240 ≤ off.toNat))
  | .misaligned => off.toNat % 4 != 0

theorem locate_fits : ∀ off : Offset, (locate off).Fits off = true := by decide +kernel

/-- A read errs exactly at the offsets that are not admitted for reading. -/
theorem memRead_eq_none_iff (s : State) (off : Offset) : memRead s off = none ↔ readAdmitted off = false := by
  have h := locate_fits off
  unfold memRead
  cases hl : locate off <;> rw [hl] at h <;>
    simp only [Location.Fits, Bool.and_eq_true, Bool.or_eq_true, beq_iff_eq, bne_iff_ne, decide_eq_true_eq] at h <;>
    simp only [readAdmitted, decide_eq_false_iff_not, reduceCtorEq, false_iff, true_iff, not_not] <;> omega

/-- A write errs exactly at the offsets that are not admitted for writing. -/
theorem memWrite_fault_iff (s : State) (off : Offset) (v : Word32) :
    memWrite s off v = .fault (.busError off) ↔ writeAdmitted off = false := by
  have h := locate_fits off
  unfold memWrite
  cases hl : locate off <;> rw [hl] at h <;>
    simp only [Location.Fits, Bool.and_eq_true, Bool.or_eq_true, beq_iff_eq, bne_iff_ne, decide_eq_true_eq] at h <;>
    simp only [writeAdmitted, decide_eq_false_iff_not, reduceCtorEq, false_iff, true_iff, not_not]
  case cmd =>
    rcases commandWrite_cases s v with ⟨i, _, hc⟩ | ⟨e, _, hc⟩
    · obtain ⟨u, hu⟩ := exec_next i s
      rw [hc, hu]; simp; omega
    · rw [hc]; simp; omega
  all_goals omega

/-- An admitted write answers a next state. -/
theorem memWrite_next {off : Offset} (h : writeAdmitted off = true) (s : State) (v : Word32) :
    ∃ t, memWrite s off v = .next t := by
  rcases memWrite_cases s off v with ⟨_, hm⟩ | ⟨k, _, hm⟩ | ⟨_, hm⟩
  · rcases commandWrite_cases s v with ⟨i, _, hc⟩ | ⟨e, _, hc⟩
    · obtain ⟨u, hu⟩ := exec_next i s
      exact ⟨u, by rw [hm, hc, hu]⟩
    · exact ⟨_, by rw [hm, hc]⟩
  · exact ⟨_, hm⟩
  · rw [(memWrite_fault_iff s off v).1 hm] at h
    cases h

end Sys2Proof.Machine
end

