-- ==== Sys2Proof/Laws/Codec.lean ====
section
/-! SUPPORT. The word codec as arithmetic: what lanes, concatenation and packing are as numbers, and the round trip through the register width. -/

namespace Sys2Proof.Machine

theorem getLsbD_append_cases {n m : Nat} (x : BitVec n) (y : BitVec m) (i : Nat) :
    (x ++ y).getLsbD i = if i < m then y.getLsbD i else x.getLsbD (i - m) := BitVec.getLsbD_append

/-- The four bytes of a bus word, put back in their lanes, are the word. -/
theorem busLanes_extract (x : Word32) :
    busLanes (x.extractLsb' 24 8) (x.extractLsb' 16 8) (x.extractLsb' 8 8) (x.extractLsb' 0 8) = x := by
  apply BitVec.eq_of_getLsbD_eq
  intro i hi
  have hi' : i < 32 := hi
  simp only [busLanes, getLsbD_append_cases, BitVec.getLsbD_extractLsb']
  split
  · simp [*]
  · split
    · simp only [*, decide_true, Bool.true_and]; congr 1; omega
    · split
      · simp only [*, decide_true, Bool.true_and]; congr 1; omega
      · rw [show decide (i - 8 - 8 - 8 < 8) = true by simp; omega, Bool.true_and]; congr 1; omega

/-- Each lane of a bus word holds its byte. -/
theorem extract_busLanes (a b c d : Byte) :
    (busLanes a b c d).extractLsb' 24 8 = a ∧ (busLanes a b c d).extractLsb' 16 8 = b ∧
    (busLanes a b c d).extractLsb' 8 8 = c ∧ (busLanes a b c d).extractLsb' 0 8 = d := by
  refine ⟨?_, ?_, ?_, ?_⟩ <;>
    (apply BitVec.eq_of_getLsbD_eq
     intro i hi
     simp only [busLanes, getLsbD_append_cases, BitVec.getLsbD_extractLsb', hi, decide_true, Bool.true_and]
     split_ifs <;> first | omega | (congr 1; omega))

theorem toNat_append_add {n m : Nat} (x : BitVec n) (y : BitVec m) :
    (x ++ y).toNat = x.toNat * 2 ^ m + y.toNat := by
  rw [BitVec.toNat_append, ← Nat.shiftLeft_add_eq_or_of_lt y.isLt, Nat.shiftLeft_eq]

/-- A bus word as a number. -/
theorem busLanes_toNat (a b c d : Byte) :
    (busLanes a b c d).toNat = ((a.toNat * 256 + b.toNat) * 256 + c.toNat) * 256 + d.toNat := by
  simp only [busLanes, toNat_append_add, Nat.reducePow]

/-- The number that big-endian bytes spell after the number `n`. -/
def bytesValueFrom (n : Nat) (bs : List Byte) : Nat := bs.foldl (fun a b => a * 256 + b.toNat) n

@[simp] theorem bytesValueFrom_nil (n : Nat) : bytesValueFrom n [] = n := rfl

@[simp] theorem bytesValueFrom_cons (n : Nat) (b : Byte) (bs : List Byte) :
    bytesValueFrom n (b :: bs) = bytesValueFrom (n * 256 + b.toNat) bs := rfl

theorem packBytes_acc (w : Nat) (bs : List Byte) (acc : BitVec w) (n : Nat) (h : acc.toNat = n % 2 ^ w) :
    (bs.foldl (fun (acc : BitVec w) b => (acc <<< 8) ||| b.setWidth w) acc).toNat
      = bytesValueFrom n bs % 2 ^ w := by
  induction bs generalizing acc n with
  | nil => simpa using h
  | cons b bs ih =>
    simp only [bytesValueFrom_cons, List.foldl_cons]
    apply ih
    rw [BitVec.toNat_or, BitVec.toNat_shiftLeft, BitVec.toNat_setWidth, ← Nat.or_mod_two_pow,
      ← Nat.shiftLeft_add_eq_or_of_lt b.isLt, h, Nat.shiftLeft_eq,
      Nat.add_mod, Nat.mod_mul_mod, ← Nat.add_mod]

/-- Packing as a number. -/
theorem packBytes_toNat (w : Nat) (bs : List Byte) : (packBytes w bs).toNat = bytesValueFrom 0 bs % 2 ^ w :=
  packBytes_acc w bs 0 0 (by simp)

/-- A word survives its register. -/
@[simp] theorem atWidth_zext64 (v : Variant) (x : BitVec v.wordBits) : atWidth v.wordBits (zext64 x) = x := by
  apply BitVec.eq_of_toNat_eq
  simp only [atWidth, zext64, BitVec.toNat_setWidth]
  cases v
  · have h : x.toNat < 2 ^ 32 := x.isLt
    change x.toNat % 2 ^ 64 % 2 ^ 32 = x.toNat
    omega
  · have h : x.toNat < 2 ^ 64 := x.isLt
    change x.toNat % 2 ^ 64 % 2 ^ 64 = x.toNat
    omega

/-- The registers hold the eight words they were given. -/
@[simp] theorem workingOfRegs_regsOfWorking (v : Variant) (x : Working v.wordBits) :
    workingOfRegs v.wordBits (regsOfWorking x) = x := by
  simp [workingOfRegs, regsOfWorking]

theorem length_unpack (v : Variant) (x : BitVec v.wordBits) : (unpack v x).length = v.wordBytes := by
  simp [unpack, bytesBE]

end Sys2Proof.Machine
end

