-- ==== Sys2Proof/Laws/Decode.lean ====
section
/-! SUPPORT. The reserved masks of 30_encoding.md R64 as ranges of numbers: what a word without reserved bits is. -/

namespace Sys2Proof

theorem opField_toNat (c : Word32) : (opField c).toNat = c.toNat % 16 := by
  simp [opField, BitVec.extractLsb'_toNat]

theorem otherReservedMask_bits : ∀ i : Fin 32,
    otherReservedMask.getLsbD i.val = decide (4 ≤ i.val) ∧
    (0xF#32).getLsbD i.val = decide (i.val < 4) := by decide

theorem toNat_and_15 (c : Word32) : (c &&& 0xF#32).toNat = c.toNat % 16 := by
  rw [BitVec.toNat_and]; exact Nat.and_two_pow_sub_one_eq_mod c.toNat 4

/-- Words with no reserved bit of NOP, COMPRESS or FINAL set. -/
theorem no_other_reserved_iff (c : Word32) : c &&& otherReservedMask = 0#32 ↔ c.toNat < 16 := by
  constructor
  · intro h0
    have h : c = c &&& 0xF#32 := by
      apply BitVec.eq_of_getLsbD_eq
      intro i hi
      have h1 := congrArg (fun z => z.getLsbD i) h0
      obtain ⟨m1, m2⟩ := otherReservedMask_bits ⟨i, hi⟩
      simp only [BitVec.getLsbD_and, BitVec.getLsbD_zero] at h1 ⊢
      simp only at m1 m2
      rw [m1] at h1
      rw [m2]
      by_cases h4 : i < 4
      · simp [h4]
      · simp [h4]; simpa [show 4 ≤ i by omega] using h1
    rw [h, toNat_and_15]; omega
  · intro hlt
    have : c = BitVec.ofNat 32 c.toNat := by simp
    rw [this]
    interval_cases c.toNat <;> rfl

theorem initReservedMask_bits : ∀ i : Fin 32,
    initReservedMask.getLsbD i.val = decide (4 ≤ i.val ∧ i.val ≠ 8) ∧
    (0x10F#32).getLsbD i.val = decide (i.val < 4 ∨ i.val = 8) := by decide

/-- Words with no reserved bit of INIT set. -/
theorem no_init_reserved_iff (c : Word32) :
    c &&& initReservedMask = 0#32 ↔ c.toNat < 16 ∨ (256 ≤ c.toNat ∧ c.toNat < 272) := by
  constructor
  · intro h0
    have h : c = c &&& 0x10F#32 := by
      apply BitVec.eq_of_getLsbD_eq
      intro i hi
      have h1 := congrArg (fun z => z.getLsbD i) h0
      obtain ⟨m1, m2⟩ := initReservedMask_bits ⟨i, hi⟩
      simp only [BitVec.getLsbD_and, BitVec.getLsbD_zero] at h1 ⊢
      simp only at m1 m2
      rw [m1] at h1
      rw [m2]
      by_cases h4 : i < 4 ∨ i = 8
      · simp [h4]
      · simp [h4]; simpa [show 4 ≤ i ∧ i ≠ 8 by omega] using h1
    have hc : c.toNat = c.toNat &&& (2^4 - 1 ||| 2^8) := congrArg BitVec.toNat h
    rw [Nat.and_or_distrib_left, Nat.and_two_pow_sub_one_eq_mod, Nat.and_two_pow] at hc
    cases h8 : c.toNat.testBit 8
    · left; simp [h8] at hc; omega
    · right
      have : (c.toNat % 16) ||| 256 = 256 + c.toNat % 16 := by
        have := Nat.two_pow_add_eq_or_of_lt (i := 8) (b := c.toNat % 16) (by omega) 1
        rw [Nat.or_comm]; simpa using this.symm
      simp [h8, this] at hc; omega
  · intro hlt
    have : c = BitVec.ofNat 32 c.toNat := by simp
    rw [this]
    rcases hlt with hlt | ⟨h1, h2⟩
    · interval_cases c.toNat <;> rfl
    · interval_cases c.toNat <;> rfl

end Sys2Proof
end

