-- ==== Sys2Proof/Laws/Host.lean ====
section
/-! SUPPORT. The small lemmas of the host protocol: how programs expand and how blocks are fed (30_encoding.md R69-R74, 44_host_reference.md R142). -/

namespace Sys2Proof.Machine

@[simp] theorem expandProgram_nil : expandProgram [] = some [] := rfl

theorem expandProgram_cons {a : Asm} {p : List Asm} {x xs : List Stmt} (ha : a.expand = some x)
    (hp : expandProgram p = some xs) : expandProgram (a :: p) = some (x ++ xs) := by
  simp [expandProgram, ha, hp]

/-- A program of two parts expands to the statements of the one and then those of the other. -/
theorem expandProgram_append {p q : List Asm} {xs ys : List Stmt} (hp : expandProgram p = some xs)
    (hq : expandProgram q = some ys) : expandProgram (p ++ q) = some (xs ++ ys) := by
  induction p generalizing xs with
  | nil => cases hp; simpa using hq
  | cons a p ih =>
    cases ha : a.expand with
    | none => simp [expandProgram, ha] at hp
    | some x =>
      cases hr : expandProgram p with
      | none => simp [expandProgram, ha, hr] at hp
      | some zs =>
        simp only [expandProgram, ha, hr, Option.some.injEq] at hp
        subst hp
        simpa using expandProgram_cons ha (ih hr)

@[simp] theorem feedBlocks_nil (loaded : Nat) (ahead : List Nat) : feedBlocks loaded ahead [] = [] := rfl

theorem feedBlocks_cons (loaded : Nat) (ahead : List Nat) (b : List Byte) (rest : List (List Byte)) :
    feedBlocks loaded ahead (b :: rest) =
      (ldblkStmts b).drop loaded ++ [wrCmd (encode .compress)]
        ++ (ldblkStmts (rest.headD [])).take (ahead.headD 0) ++ [waitStmt]
        ++ feedBlocks (ahead.headD 0) ahead.tail rest := rfl

/-- Whatever is loaded ahead of a block and after it, the host writes the whole block. -/
theorem ldblk_ahead_and_after (n : Nat) (b : List Byte) :
    (ldblkStmts b).take n ++ (ldblkStmts b).drop n = ldblkStmts b := List.take_append_drop n _

/-- No statement of the protocol is a side read. -/
@[simp] theorem sideRead_wr (off : Offset) (c : Word32) : (Stmt.wr off c).sideRead = false := rfl
@[simp] theorem sideRead_poll (off : Offset) (mask value : Word32) :
    (Stmt.poll off mask value).sideRead = false := rfl
theorem sideRead_rddig (v : Variant) : ∀ st ∈ rddigStmts v, st.sideRead = false := by
  cases v <;> decide

end Sys2Proof.Machine
end

