-- ==== Sys2Proof/Laws/PerInstr.lean ====
section
/-! SUPPORT. One statement about every instruction as syntax: the row of spec/opcode_table.json it belongs to covers its word, and no other row does (30_encoding.md R65). -/

namespace Sys2Proof.Laws.TableRow

/-- The instruction is well formed, its row stands in the table and covers its word, and every row of the
table that covers its word is that row (R65). -/
def Statement (i : Instr) : Prop :=
  i.wf = true ∧ rowOf i ∈ opcodeTable ∧ (rowOf i).covers (encode i) = true ∧
    ∀ r ∈ opcodeTable, r.covers (encode i) = true → r = rowOf i

theorem nop : Statement .nop := by unfold Statement; decide

theorem init (v : Variant) : Statement (.init v) := by cases v <;> (unfold Statement; decide)

theorem compress : Statement .compress := by unfold Statement; decide

theorem final : Statement .final := by unfold Statement; decide

end Sys2Proof.Laws.TableRow
end

