-- ==== Sys2Proof/Tests/Slice0.lean ====
section
/-! SUPPORT. Tests against the vectors of 95_test_vectors.md and words written out from the encoding, and a witness for the hypotheses of every obligation that has hypotheses. -/

namespace Sys2Proof.Tests

open Sys2Proof Sys2Proof.Machine

-- One theorem after another: the kernel evaluations below would otherwise run in many threads at once,
-- and the stacks of those threads count against the memory limit of the check.
set_option Elab.async false

/-! Helpers. -/

/-- The next state of an outcome, if it is one. -/
def nextOf : Host.Outcome State Fault Refusal → Option State
  | .next s => some s
  | .fault _ => none
  | .refused _ => none

/-- The reason of a fault, if the outcome is one. -/
def faultOf : Host.Outcome State Fault Refusal → Option Fault
  | .next _ => none
  | .fault r => some r
  | .refused _ => none

/-- The STATUS word after an outcome. -/
def statusAfter (o : Host.Outcome State Fault Refusal) : Option Word32 :=
  (nextOf o).map State.statusWord

/-- A message has been started and nothing compressed. -/
def ready (v : Variant) : State :=
  { State.reset with phase := .ready, variant := v, h := regsOfWorking (ivWorking v) }

/-- One block has been compressed. -/
def oneBlock (v : Variant) : State := { ready v with blkcnt := 1#64 }

/-- A compression is in flight, `n` turns from its COMPLETE step. -/
def inFlight (v : Variant) (n : Nat) : State := { ready v with busy := true, latencyLeft := n }

/-- A message has ended, with eight different chaining words. -/
def ended (v : Variant) : State := { oneBlock v with phase := .done }

/-- The state with these inputs waiting. -/
def waiting (s : State) (i : List Input) : State := { s with inputs := i }

/-- The words of the padded message `abc` (V-S1, V-S2). -/
def abcWords (w : Nat) : List (BitVec w) :=
  [BitVec.ofNat w (0x61626380 * 2 ^ (w - 32)), 0, 0, 0, 0, 0, 0, 0, 0, 0, 0, 0, 0, 0, 0, 0x18]

/-! Well-formedness. -/

theorem test_wf_refuses_ldblk_of_three_bytes : Asm.wf (.ldblk [1, 2, 3]) = false := by decide

theorem test_wf_refuses_ldblk_of_132_bytes : Asm.wf (.ldblk (List.replicate 132 0)) = false := by
  decide +kernel

theorem test_wf_admits_ldblk_of_128_bytes : Asm.wf (.ldblk (List.replicate 128 0)) = true := by
  decide +kernel

theorem test_ill_formed_ldblk_expands_to_nothing : Asm.expand (.ldblk [1, 2, 3]) = none := by decide

/-- 2^61 bytes are 2^64 bits (R136). -/
theorem test_message_domain :
    messageLengthInDomain (2 ^ 61) = false ∧ messageLengthInDomain (2 ^ 61 - 1) = true := by decide

/-! Decoding: RES1 (23 bits), V, RES0 (4 bits), OP, written out from R61-R63. -/

theorem test_decode_nop :
    decode 0b00000000000000000000000_0_0000_0000 = .command .nop := by decide

theorem test_decode_init_sha256 :
    decode 0b00000000000000000000000_0_0000_0001 = .command (.init .sha256) := by decide

theorem test_decode_init_sha512 :
    decode 0b00000000000000000000000_1_0000_0001 = .command (.init .sha512) := by decide

theorem test_decode_compress :
    decode 0b00000000000000000000000_0_0000_0010 = .command .compress := by decide

theorem test_decode_final :
    decode 0b00000000000000000000000_0_0000_0011 = .command .final := by decide

/-- The edges of R64 and R65: OP = 4 and 15, bit 8 on another OP, bits 4, 7, 9 and 31 on an INIT. -/
theorem test_decode_edges :
    decode 0x00000004 = .illegal .badOpcode ∧ decode 0x0000010F = .illegal .badOpcode ∧
    decode 0x00000100 = .illegal .reservedBits ∧ decode 0x00000103 = .illegal .reservedBits ∧
    decode 0x00000011 = .illegal .reservedBits ∧ decode 0x00000181 = .illegal .reservedBits ∧
    decode 0x00000301 = .illegal .reservedBits ∧ decode 0x80000001 = .illegal .reservedBits := by decide

theorem test_decode_table_words :
    decodeTableWord 32 0x00000000 = some .nop ∧ decodeTableWord 32 0x00000101 = some (.init .sha512) ∧
    decodeTableWord 32 0x00000002 = some .compress ∧ decodeTableWord 32 0x00000003 = some .final ∧
    decodeTableWord 32 0x00000102 = none ∧ decodeTableWord 8 0x00000002 = some .compress := by decide

theorem test_encode_words :
    encode .nop = 0x00000000 ∧ encode (.init .sha256) = 0x00000001 ∧ encode (.init .sha512) = 0x00000101 ∧
    encode .compress = 0x00000002 ∧ encode .final = 0x00000003 := by decide

/-! The commands: vectors V-K and V-X. -/

/-- V-K2. -/
theorem test_nop_after_reset : statusAfter (exec .nop State.reset) = some 0x00000000 := by decide +kernel

/-- V-K11 and V-X14. -/
theorem test_nop_keeps_busy_and_err :
    statusAfter (exec .nop { inFlight .sha256 2 with err := .badPhase }) = some 0x00000405 := by decide +kernel

/-- V-K3. -/
theorem test_init_sha256 :
    statusAfter (exec (.init .sha256) State.reset) = some 0x00000001 ∧
    (nextOf (exec (.init .sha256) State.reset)).map (fun t => t.h) =
      some #v[0x6a09e667, 0xbb67ae85, 0x3c6ef372, 0xa54ff53a, 0x510e527f, 0x9b05688c, 0x1f83d9ab, 0x5be0cd19] := by
  decide +kernel

/-- V-K10, V-K4 and V-X16. -/
theorem test_init_sha512 :
    statusAfter (exec (.init .sha512) { ready .sha256 with blkcnt := 3, err := .noBlock }) = some 0x00000011 ∧
    (nextOf (exec (.init .sha512) { ready .sha256 with blkcnt := 3 })).map (fun t => (t.blkcnt, t.h[0])) =
      some (0#64, 0x6a09e667f3bcc908#64) := by decide +kernel

/-- V-K5 and V-W7. -/
theorem test_compress_sha256 :
    (nextOf (exec .compress { ready .sha256 with blk := [(0x100, 0x61), (0x101, 0x62), (0x102, 0x63), (0x103, 0x80)] })).map
      (fun t => (t.statusWord, t.l[0], t.l[1])) = some (0x00000005#32, 0x61626380#64, 0#64) := by
  decide +kernel

/-- V-K6, V-W8 and V-W9. -/
theorem test_compress_sha512 :
    (nextOf (exec .compress { ready .sha512 with
      blk := [(0x100, 0x61), (0x101, 0x62), (0x102, 0x63), (0x103, 0x80), (0x17F, 0x18)] })).map
      (fun t => (t.statusWord, t.l[0], t.l[15])) =
        some (0x00000015#32, 0x6162638000000000#64, 0x18#64) := by decide +kernel

/-- V-K8. -/
theorem test_final :
    statusAfter (exec .final (oneBlock .sha256)) = some 0x00000002 ∧
    statusAfter (exec .final (oneBlock .sha512)) = some 0x00000012 := by decide +kernel

/-- V-X3 and V-X13. -/
theorem test_final_rejected :
    statusAfter (exec .final (ready .sha256)) = some 0x00000501 ∧
    statusAfter (exec .final (ended .sha256)) = some 0x00000402 := by decide +kernel

/-- V-X1, V-X2, V-X4 to V-X12. -/
theorem test_rejected_words :
    statusAfter (commandWrite State.reset 0x00000002) = some 0x00000400 ∧
    statusAfter (commandWrite State.reset 0x00000003) = some 0x00000400 ∧
    statusAfter (commandWrite (ready .sha256) 0x00000102) = some 0x00000201 ∧
    statusAfter (commandWrite (ready .sha256) 0x00000007) = some 0x00000101 ∧
    statusAfter (commandWrite (ready .sha256) 0xFFFFFFFF) = some 0x00000101 ∧
    statusAfter (commandWrite (ready .sha256) 0x00000010) = some 0x00000201 ∧
    statusAfter (commandWrite (ready .sha256) 0x00000201) = some 0x00000201 ∧
    statusAfter (commandWrite (inFlight .sha256 1) 0x00000001) = some 0x00000305 ∧
    statusAfter (commandWrite (inFlight .sha256 1) 0x00000002) = some 0x00000305 ∧
    statusAfter (commandWrite (inFlight .sha256 1) 0x00000013) = some 0x00000205 ∧
    statusAfter (commandWrite (ended .sha256) 0x00000002) = some 0x00000402 := by decide +kernel

/-- V-K12 and V-K13: the count carries into its high half and wraps. -/
theorem test_complete_counts :
    (memRead (State.complete { inFlight .sha256 0 with blkcnt := 0xffffffff }) 0x00C,
     memRead (State.complete { inFlight .sha256 0 with blkcnt := 0xffffffff }) 0x010,
     (State.complete { inFlight .sha256 0 with blkcnt := 0xffffffffffffffff }).blkcnt) =
      (some 0#32, some 1#32, 0#64) := by decide +kernel

/-- V-K7, V-K14: the latched block is used, whatever BLK holds. -/
theorem test_complete_sha256 :
    (State.complete { inFlight .sha256 0 with
      blk := [(0x100, 0xff)], l := Vector.ofFn fun t => zext64 ((abcWords 32).getD t.val 0) }).h =
      #v[0xba7816bf, 0x8f01cfea, 0x414140de, 0x5dae2223, 0xb00361a3, 0x96177a9c, 0xb410ff61, 0xf20015ad] := by
  decide +kernel

/-! The codec, the schedule and the compression. -/

/-- V-W1 to V-W5, and R84's pack at offset 1. -/
theorem test_codec :
    pack .sha256 [0x01, 0x02, 0x03, 0x04] 0 = some 0x01020304#32 ∧
    pack .sha512 [0x01, 0x02, 0x03, 0x04, 0x05, 0x06, 0x07, 0x08] 0 = some 0x0102030405060708#64 ∧
    pack .sha256 [0xaa, 0x61, 0x62, 0x63, 0x80] 1 = some 0x61626380#32 ∧
    pack .sha256 [0xaa, 0x61, 0x62, 0x63, 0x80] 2 = none ∧
    unpack .sha256 0xba7816bf#32 = [0xba, 0x78, 0x16, 0xbf] ∧
    unpack .sha512 0x6a09e667f3bcc908#64 = [0x6a, 0x09, 0xe6, 0x67, 0xf3, 0xbc, 0xc9, 0x08] := by decide +kernel

/-- The rows 0x89abcdef and 0x0123456789abcdef of the tables of logic functions. -/
theorem test_sigmas :
    smallSigma0 .sha256 0x89abcdef#32 = 0x3d5dcc4c#32 ∧ smallSigma1 .sha256 0x89abcdef#32 = 0x9f685f13#32 ∧
    bigSigma0 .sha256 0x89abcdef#32 = 0x22210003#32 ∧ bigSigma1 .sha256 0x89abcdef#32 = 0xd6316d8a#32 ∧
    smallSigma0 .sha512 0x0123456789abcdef#64 = 0x6f92c77c6c4f1aa1#64 ∧
    smallSigma1 .sha512 0x0123456789abcdef#64 = 0x70a3460dbbd4317a#64 ∧
    bigSigma0 .sha512 0x0123456789abcdef#64 = 0xb7c57a100c7ec1ab#64 ∧
    bigSigma1 .sha512 0x0123456789abcdef#64 = 0x7703112333475567#64 ∧
    ch 0x89abcdef#32 0x76543210#32 0x0f0f0f0f#32 = 0x06040200#32 ∧
    maj 0x89abcdef#32 0x76543210#32 0x0f0f0f0f#32 = 0x0f0f0f0f#32 := by decide +kernel

/-- V-S1: the first and last derived words, and W[17], which uses sigma1. -/
theorem test_schedule_sha256 :
    [16, 17, 18, 63].map (fun j => (expand .sha256 (abcWords 32)).getD j 0) =
      [0x61626380#32, 0x000f0000, 0x7da86405, 0x12b1edeb] := by decide +kernel

/-- V-S2. -/
theorem test_schedule_sha512 :
    [16, 17, 23, 79].map (fun j => (expand .sha512 (abcWords 64)).getD j 0) =
      [0x6162638000000000#64, 0x00030000000000c0, 0x62e56500cc0780f0, 0x92aeeed1a7bcf7d2] := by decide +kernel

/-- V-R1: the first round. -/
theorem test_first_round :
    roundStep .sha256 (ivWorking .sha256) (0x428a2f98#32, 0x61626380#32) =
      ⟨0x5d6aebcd#32, 0x6a09e667#32, 0xbb67ae85#32, 0x3c6ef372#32,
       0xfa2a4622#32, 0x510e527f#32, 0x9b05688c#32, 0x1f83d9ab#32⟩ := by decide +kernel

/-- V-C1 for SHA-512: the all-zero corner. -/
theorem test_compress_zero_sha512 :
    compress .sha512 ⟨0#64, 0#64, 0#64, 0#64, 0#64, 0#64, 0#64, 0#64⟩ (List.replicate 16 0#64) =
      ⟨0xad3a5da838ebf830#64, 0x5d7142ff85fcbedb#64, 0x7fa8bf86d6f7ca99#64, 0x1c6b15b039d70bbf#64,
       0x29f6515289923518#64, 0x6fd7101d5f2e8f3a#64, 0x1c358d2476531450#64, 0x568c0d99d756dc3c#64⟩ := by
  decide +kernel

/-! The bus: vectors V-B, V-W and V-T. -/

/-- V-B1, V-B3, V-B8 to V-B11, and the reads that are no errors. -/
theorem test_read_edges :
    [0x00A, 0x004, 0x014, 0x0FC, 0x180, 0x1FC, 0x240, 0x3FC, 0x3FF].map
      (fun n => memRead (ready .sha256) (BitVec.ofNat 10 n)) = List.replicate 9 none ∧
    [0x000, 0x008, 0x00C, 0x010, 0x100, 0x17C, 0x200, 0x23C].map
      (fun n => memRead (ready .sha256) (BitVec.ofNat 10 n)) =
      [some 0x53484132#32, some 1, some 0, some 0, some 0, some 0, some 0, some 0] := by decide +kernel

/-- V-B2, V-B4 to V-B7, and the unmapped edges. -/
theorem test_write_edges :
    [0x101, 0x000, 0x008, 0x00C, 0x010, 0x200, 0x23C, 0x014, 0x0FC, 0x180, 0x240].map
      (fun n => faultOf (memWrite (ready .sha256) (BitVec.ofNat 10 n) 0)) =
    [0x101, 0x000, 0x008, 0x00C, 0x010, 0x200, 0x23C, 0x014, 0x0FC, 0x180, 0x240].map
      (fun n => some (.busError (BitVec.ofNat 10 n))) := by decide +kernel

/-- V-W6 at the first word, and the last word of BLK. -/
theorem test_blk_lanes :
    (nextOf (memWrite State.reset 0x100 0x11223344)).map (fun t => t.blk) =
      some [(0x100, 0x11), (0x101, 0x22), (0x102, 0x33), (0x103, 0x44)] ∧
    (nextOf (memWrite State.reset 0x17C 0x00000018)).map (fun t => t.blk) = some [(0x17F, 0x18)] := by
  decide +kernel

/-- V-W10 and V-W11. -/
theorem test_digest_window :
    memRead { ended .sha256 with h := Vector.replicate 8 0xba7816bf } 0x200 = some 0xba7816bf ∧
    memRead { ended .sha256 with h := Vector.replicate 8 0xba7816bf } 0x220 = some 0 ∧
    memRead { ended .sha512 with h := Vector.replicate 8 0xcf83e1357eefb8bd } 0x200 = some 0xcf83e135 ∧
    memRead { ended .sha512 with h := Vector.replicate 8 0xcf83e1357eefb8bd } 0x204 = some 0x7eefb8bd := by
  decide +kernel

/-- V-T2: reset wins over the COMPLETE step. -/
theorem test_reset_during_compression :
    nextOf (step (waiting { inFlight .sha512 0 with blkcnt := 7 } [.reset none])) = some State.reset := by
  decide +kernel

/-- The first step after reset runs the command placed for it. -/
theorem test_step_runs_the_command :
    statusAfter (step (State.reset.withFetchWord 32 0x00000101)) = some 0x00000011 ∧
    statusAfter (step ((inFlight .sha256 0).withFetchWord 32 0x00000003)) = some 0x00000305 := by
  decide +kernel

/-! The host's side: V-P, V-E and the text of statements. -/

/-- V-P1 at the boundary between one block and two. -/
theorem test_padded_lengths :
    [0, 55, 56, 63, 64, 120].map (fun n => (pad .sha256 (List.replicate n 0)).length) =
      [64, 64, 128, 128, 128, 192] ∧
    [0, 111, 112, 128, 240].map (fun n => (pad .sha512 (List.replicate n 0)).length) =
      [128, 128, 256, 256, 384] := by decide +kernel

/-- V-E8. -/
theorem test_digest_abc_sha256 :
    digest .sha256 [0x61, 0x62, 0x63] =
      some "ba7816bf8f01cfea414140de5dae2223b00361a396177a9cb410ff61f20015ad" := by decide +kernel

/-- V-E4. -/
theorem test_digest_empty_sha512 :
    digest .sha512 [] = some ("cf83e1357eefb8bdf1542850d66d8007d620e4050b5715dc83f4a921d36ce9ce"
      ++ "47d0d13c5d85f2b0ff8318d2877eec2f63b931bd47417a81a538327af927da3e") := by decide +kernel

/-- The 56-byte message of V-H1, whose byte `i` is the letter `i / 4 + i % 4` of the alphabet. -/
def twoBlockMessage : List Byte := (List.range 56).map fun i => BitVec.ofNat 8 (0x61 + i / 4 + i % 4)

/-- P3: block 1 is loaded whole before the WAIT, so 16 writes stand between COMPRESS and WAIT, and the
next COMPRESS follows the WAIT. -/
theorem test_protocol_loads_ahead_as_P3 :
    [17, 18, 19, 33, 34, 35, 36, 37, 38, 39].map
      (fun i => (protocolStmts .sha256 twoBlockMessage [16])[i]?) =
    [some (.wr 0x13C 0x00000000), some (.wr 0x004 0x00000002), some (.wr 0x100 0x00000000),
     some (.wr 0x138 0x00000000), some (.wr 0x13C 0x000001c0), some waitStmt, some (.wr 0x004 0x00000002),
     some waitStmt, some (.wr 0x004 0x00000003), some (.rd 0x200)] := by decide +kernel

/-- Lines of P1 and P4, and the offset names of R69. -/
theorem test_parse :
    (parseProgram .sha256 (["INIT.512          ; WR 0x004, 0x00000101", "RD   0x00A", "RDDIG",
        "WR BLK+4, 0x11223344", "RD DIGEST+60 = 0", "POLL 0x008, 4, 0x00000000"].map String.toList)) =
      some [.init512, .rd 0x00A, .rddig .sha512, .wr 0x104 0x11223344, .rd 0x23C, .poll 0x008 4 0] := by
  decide +kernel

/-! Witnesses: for every obligation with hypotheses, states and operands that meet them, one for each
clause, at the boundary values of its ranges. -/

/-- Obligation 2: both sides of an INIT word, and words on each branch of the rule. -/
theorem witness_DecodeFollowsTheDecodingRule :
    (0x00000004#32).toNat % 16 = 4 ∧ 0x00000201#32 &&& 0xFFFFFEF0#32 ≠ 0#32 ∧
    0x00000103#32 &&& 0xFFFFFFF0#32 ≠ 0#32 ∧ (0x00000101#32).getLsbD 8 = true ∧
    decode 0x00000101#32 = .command (.init .sha512) := by decide

/-- Obligation 3: every instruction is well formed; a word decodes to it. -/
theorem witness_EncodeAndDecodeAgree :
    Instr.wf (.init .sha512) = true ∧ decode 0x00000101#32 = .command (.init .sha512) := by decide

/-- Obligation 4: a NOP, and two NOP spellings with one reserved bit, the lowest and the highest. -/
theorem witness_NopChangesNothing :
    (0x00000000#32).toNat % 16 = 0 ∧ (0x00000010#32).toNat % 16 = 0 ∧ 0x00000010#32 ≠ 0x00000000#32 ∧
    (0x80000000#32).toNat % 16 = 0 ∧ 0x80000000#32 ≠ 0x00000000#32 := by decide

/-- Obligations 5 to 9: a state for each row of the acceptance table. -/
theorem witness_commands :
    State.reset.busy = false ∧ State.reset.phase ≠ .ready ∧
    (ready .sha256).busy = false ∧ (ready .sha256).phase = .ready ∧ (ready .sha256).blkcnt = 0#64 ∧
    (oneBlock .sha512).busy = false ∧ (oneBlock .sha512).phase = .ready ∧ (oneBlock .sha512).blkcnt ≠ 0#64 ∧
    (inFlight .sha256 0).busy = true ∧ (inFlight .sha256 0).phase = .ready ∧
    (ended .sha512).busy = false ∧ (ended .sha512).phase = .done := by decide

/-- Obligation 10. -/
theorem witness_CompletePerformsTheCompression :
    (inFlight .sha512 0).engineTurn = true := by decide

/-- Obligation 11: with 0 and with 2 turns left, and a statement, a bus error and a poll waiting. -/
theorem witness_CompressionAlwaysCompletes :
    (inFlight .sha256 0).busy = true ∧
    (∀ i ∈ (inFlight .sha256 0).inputs, i.admitted = true ∧ ∀ cut, i ≠ .reset cut) ∧
    (waiting (inFlight .sha256 2) [.stmt (.wr 0x17C 1), .access (.read 0x00A), .stmt waitStmt]).busy = true ∧
    ∀ i ∈ (waiting (inFlight .sha256 2)
        [.stmt (.wr 0x17C 1), .access (.read 0x00A), .stmt waitStmt]).inputs,
      i.admitted = true ∧ ∀ cut, i ≠ .reset cut := by
  refine ⟨rfl, by simp [inFlight, ready, State.reset], rfl, ?_⟩
  intro i hi
  simp only [waiting, List.mem_cons, List.not_mem_nil, or_false] at hi
  rcases hi with rfl | rfl | rfl <;> exact ⟨by decide, fun cut => by simp⟩

/-- Obligation 12: a COMPRESS written 1 turn before the COMPLETE step, and in its turn. -/
theorem witness_CompleteAndCommandInEitherOrder :
    (waiting (inFlight .sha256 1) [.stmt (.wr 0x004#10 0x00000002)]).busy = true ∧
    (waiting (inFlight .sha256 1) [.stmt (.wr 0x004#10 0x00000002)]).latencyLeft ≠ 0 ∧
    (waiting (inFlight .sha256 0) [.stmt (.wr 0x004#10 0x00000002)]).busy = true ∧
    (waiting (inFlight .sha256 0) [.stmt (.wr 0x004#10 0x00000002)]).latencyLeft = 0 ∧
    decode 0x00000002 = .command .compress ∧ Instr.compress ≠ .nop := by decide

/-- Obligation 13: the last word of BLK and of DIGEST, offsets next to the admitted ones that no clause
admits, and an admitted read. -/
theorem witness_BusReadsFollowTheMap :
    BitVec.ofNat 10 (0x100 + 4 * 31) = 0x17C#10 ∧ BitVec.ofNat 10 (0x200 + 4 * 15) = 0x23C#10 ∧
    (∀ off ∈ [0x004#10, 0x014, 0x0FC, 0x101, 0x180, 0x1FC, 0x240, 0x3FF],
      ¬ (off = 0x000#10 ∨ off = 0x008#10 ∨ off = 0x00C#10 ∨ off = 0x010#10 ∨
        (∃ k, k < 32 ∧ off = BitVec.ofNat 10 (0x100 + 4 * k)) ∨
        (∃ k, k < 16 ∧ off = BitVec.ofNat 10 (0x200 + 4 * k)))) ∧
    memRead State.reset 0x000 = some 0x53484132 := by decide +kernel

/-- Obligation 14: both edges of each range of the two conditions, and the admitted words beside them. -/
theorem witness_BusErrorsDependOnTheOffsetAlone :
    ([0x010, 0x014, 0x0FC, 0x100, 0x17C, 0x180, 0x1FC, 0x200, 0x23C, 0x240, 0x3FC].map
      fun n => (memRead State.reset (BitVec.ofNat 10 n)).isNone) =
      [false, true, true, false, false, true, true, false, false, true, true] ∧
    ([0x004, 0x010, 0x014, 0x0FC, 0x100, 0x17C, 0x180, 0x1FC, 0x200, 0x23C, 0x240, 0x3FC].map
      fun n => (faultOf (memWrite State.reset (BitVec.ofNat 10 n) 0)).isSome) =
      [false, true, true, true, false, false, true, true, true, true, true, true] := by decide +kernel

/-- Obligation 15: a canonical BLK, the last word, and offsets that are neither CMD nor BLK. -/
theorem witness_BusWritesFollowTheMap :
    Memory.wf (State.blk { ready .sha256 with blk := [(0x17F, 1)] }) = true ∧
    (∀ off ∈ [0x000#10, 0x008, 0x0FC, 0x102, 0x180, 0x200, 0x3FC],
      ¬ (off = 0x004#10 ∨ ∃ k, k < 32 ∧ off = BitVec.ofNat 10 (0x100 + 4 * k))) := by decide +kernel

/-- Obligation 16: a write to the first and to the last word, and another word. -/
theorem witness_BlkReadsBackWhatWasWritten :
    State.reset.blk.wf = true ∧
    (∃ t, memWrite State.reset (BitVec.ofNat 10 (0x100 + 4 * 0)) 0xffffffff = .next t) ∧
    (∃ t, memWrite State.reset (BitVec.ofNat 10 (0x100 + 4 * 31)) 0x00000001 = .next t) ∧ 30 ≠ 31 :=
  ⟨by decide, ⟨_, rfl⟩, ⟨_, rfl⟩, by decide⟩

/-- Obligation 17: an accepted COMPRESS in SHA-256; the last latched word is word 15. -/
theorem witness_BlkBusWordIsPack256 :
    (ready .sha256).variant = .sha256 ∧ (ready .sha256).busy = false ∧
    ∃ t, exec .compress (ready .sha256) = .next t ∧ t.busy = true := ⟨rfl, rfl, _, rfl, rfl⟩

/-- Obligations 18, 19, 48: ended messages of both variants, and a state in which the digest is hidden. -/
theorem witness_digest_states :
    (ended .sha256).phase = .done ∧ (ended .sha256).variant = .sha256 ∧
    (ended .sha512).phase = .done ∧ (ended .sha512).variant = .sha512 ∧ (ready .sha512).phase ≠ .done ∧
    BitVec.ofNat 10 (0x200 + 4 * 7) = 0x21C#10 ∧ BitVec.ofNat 10 (0x200 + 4 * 8) = 0x220#10 ∧
    BitVec.ofNat 10 (0x204 + 8 * 7) = 0x23C#10 := by decide

/-- Obligation 22: each of the five clauses. -/
theorem witness_BusErrorAnswersAndChangesNothing :
    (ready .sha256).engineTurn = false ∧
    (∀ i, (waiting (ready .sha256) [.access i]).engineTurn = false) ∧
    (∀ st, (waiting (inFlight .sha256 1) [.stmt st]).engineTurn = false) ∧
    memRead (ready .sha256) 0x00A = none ∧ writeAdmitted 0x200 = false := by
  refine ⟨rfl, fun _ => rfl, fun _ => rfl, by decide, by decide⟩

/-- Obligation 23: a statement that is not admitted, and the engine's turn, in which none can stop. -/
theorem witness_OnlyABusErrorStopsAProgram :
    (waiting State.reset [.stmt (.rd 0x004)]).engineTurn = false ∧ Stmt.admitted (.rd 0x004) = false ∧
    faultOf (step (waiting State.reset [.stmt (.rd 0x004)])) = some (.busError 0x004) ∧
    (waiting (inFlight .sha256 0) [.stmt (.rd 0x004)]).engineTurn = true := by decide +kernel

/-- Obligations 24 and 26: an offset at the last word (V-W12), and one byte beyond. -/
theorem witness_pack_bounds :
    120 + Variant.wordBytes .sha512 ≤ (List.replicate 128 (0 : Byte)).length ∧
    (List.replicate 128 (0 : Byte)).length < 121 + Variant.wordBytes .sha512 := by decide +kernel

/-- Obligations 25, 27, 30, 31, 32: the ends of the index ranges. -/
theorem witness_index_ranges :
    7 < Variant.wordBytes .sha512 ∧ 3 < Variant.wordBytes .sha256 ∧ 15 < 16 ∧ 63 < 64 ∧
    (abcWords 32).length = 16 ∧ (abcWords 64).length = 16 ∧
    16 ≤ 63 ∧ 63 < Variant.rounds .sha256 ∧ 79 < Variant.rounds .sha512 := by decide

/-- Obligation 28: two blocks that agree on BLK[0..63] and differ at BLK[64], both accepted. -/
theorem witness_CompressReadsOnlyItsBlock :
    (∃ t, exec .compress (ready .sha256) = .next t ∧ t.busy = true) ∧
    (∃ t, exec .compress { ready .sha256 with blk := [(0x140, 1)] } = .next t ∧ t.busy = true) ∧
    ∀ i, i < Variant.blockBytes .sha256 →
      State.blkByte { ready .sha256 with blk := [(0x140, 1)] } i = (ready .sha256).blkByte i := by
  refine ⟨⟨_, rfl, rfl⟩, ⟨_, rfl, rfl⟩, fun i hi => ?_⟩
  have h : i < 64 := hi
  have hne : ¬ 0x140 = Config.blkBase + i := by simp only [Config.blkBase]; omega
  simp only [State.blkByte, Memory.read, if_neg hne]
  rfl

/-- Obligation 33: two engines whose registers differ in their upper halves only. -/
theorem witness_Sha256IgnoresUpperHalves :
    (inFlight .sha256 0).engineTurn = true ∧
    State.engineTurn { inFlight .sha256 0 with l := Vector.replicate 16 0x100000000 } = true ∧
    (∃ t, step (inFlight .sha256 0) = .next t) ∧
    (∀ k : Fin 16, (State.l { inFlight .sha256 0 with l := Vector.replicate 16 0x100000000 })[k].setWidth 32 =
      (inFlight .sha256 0).l[k].setWidth 32) :=
  ⟨rfl, rfl, ⟨_, rfl⟩, by decide +kernel⟩

/-- A compression of the zero chaining value in flight: the invariants of R36 hold of it. -/
def zeroInFlight : State := { State.reset with phase := .ready, busy := true }

/-- Obligation 36: the invariants hold of a state in the middle of a message, which steps. -/
theorem witness_EveryStepKeepsTheInvariants :
    Inv zeroInFlight ∧ step zeroInFlight = .next zeroInFlight.complete := by
  refine ⟨⟨fun _ => rfl, fun h => (nomatch h), fun h => (nomatch h), fun _ x hx => ?_, fun _ _ x hx => ?_,
    by decide, fun _ => rfl⟩, rfl⟩
  · simp only [zeroInFlight, State.reset, Vector.mem_replicate] at hx
    rw [hx.2]; rfl
  · simp only [zeroInFlight, State.reset, Vector.mem_replicate] at hx
    rw [hx.2]; rfl

/-- A compression in flight ends, with WAIT next and whatever follows it, within one message. -/
theorem wait_ends {v : Variant} {s0 : State} {bs : List (List (BitVec v.wordBits))} {rest : List Input} :
    ∀ (n : Nat) (s : State), MessageRun v s0 bs s → s.busy = true → s.latencyLeft = n → s.phase = .ready →
      s.inputs = .stmt waitStmt :: rest →
      ∃ t, MessageRun v s0 bs t ∧ t.busy = false ∧ t.latencyLeft = 0 ∧ t.phase = .ready ∧
        t.blkcnt = s.blkcnt + 1#64 ∧ t.inputs = .stmt waitStmt :: rest := by
  intro n
  induction n with
  | zero =>
    intro s hr hb hl hp hi
    have he : s.engineTurn = true := by simp [State.engineTurn, State.resetNext, hb, hl, hi]
    refine ⟨s.complete, .other hr (by simp [step, he]) (by simp [State.resetNext, hi]) ?_ ?_, rfl, hl, hp, rfl, hi⟩
    all_goals simp [State.initNext, State.acceptedNext, State.commandNext, he]
  | succ n ih =>
    intro s hr hb hl hp hi
    have he : s.engineTurn = false := by simp [State.engineTurn, hl]
    have hne : s.statusWord &&& 0x00000004 ≠ 0x00000000 := by
      unfold State.statusWord
      rw [hb, hp]
      cases s.err <;> cases s.variant <;> decide
    have hd : memRead s Config.statusOffset = some s.statusWord := rfl
    have hs : step s = .next ((s.takeTurn s.inputs).answer (readAck s.statusWord)) := by
      simp only [step, he, environmentTurn, hi, waitStmt, pollStmt, hd, if_neg hne, Bool.false_eq_true,
        if_false]
    obtain ⟨t, h1, h2, h3, h4, h5, h6⟩ := ih ((s.takeTurn s.inputs).answer (readAck s.statusWord))
      (.other hr hs (by simp [State.resetNext, hi])
        (by simp [State.initNext, State.acceptedNext, State.commandNext, he, hi, waitStmt])
        (by simp [State.acceptedNext, State.commandNext, he, hi, waitStmt])) hb
      (by show s.latencyLeft - 1 = n; omega) hp hi
    exact ⟨t, h1, h2, h3, h4, h5, h6⟩

/-- COMPRESS, WAIT and FINAL, waiting on the port. -/
def oneBlockInputs : List Input := [.stmt (wrCmd 0x00000002), .stmt waitStmt, .stmt (wrCmd 0x00000003)]

/-- Obligation 37: a whole message of one block, from its INIT to DONE, whatever the latency. -/
theorem witness_MessageBlocksAreChainedInOrder (v : Variant) :
    ∃ s, exec (.init v) (waiting State.reset oneBlockInputs) = .next s ∧
      ∃ bs t, MessageRun v s bs t ∧ bs.length = 1 ∧ t.busy = false ∧ t.phase = .done := by
  refine ⟨_, rfl, [State.messageWords ((waiting State.reset oneBlockInputs).startMessage v) v], ?_⟩
  obtain ⟨t, hr, hb, hl, hp, hc, hi⟩ := wait_ends (v := v) _ _
    (.feed (.begin (v := v) (start := (waiting State.reset oneBlockInputs).startMessage v)) rfl (by cases v <;> rfl))
    rfl rfl rfl rfl
  have hc1 : t.blkcnt = 0#64 + 1#64 := hc
  have hi1 : t.inputs = .stmt waitStmt :: [.stmt (wrCmd 0x00000003)] := hi
  have he : t.engineTurn = false := by simp [State.engineTurn, hb]
  have hz : t.statusWord &&& 0x00000004 = 0x00000000 := by
    unfold State.statusWord
    rw [hb, hp]
    cases t.err <;> cases t.variant <;> decide
  have hd : memRead t Config.statusOffset = some t.statusWord := rfl
  have hs : step t = .next ((t.takeTurn [.stmt (wrCmd 0x00000003)]).answer (readAck t.statusWord)) := by
    simp only [step, he, environmentTurn, hi1, waitStmt, pollStmt, hd, if_pos hz, Bool.false_eq_true,
      if_false]
  have hr2 := MessageRun.other hr hs (by simp [State.resetNext, hi1])
    (by simp [State.initNext, State.acceptedNext, State.commandNext, he, hi1, waitStmt])
    (by simp [State.acceptedNext, State.commandNext, he, hi1, waitStmt])
  let u := (t.takeTurn [.stmt (wrCmd 0x00000003)]).answer (readAck t.statusWord)
  have hu : u.engineTurn = false := by simp [u, State.engineTurn, State.takeTurn, State.answer, hb]
  have hui : u.inputs = [.stmt (wrCmd 0x00000003)] := rfl
  have hcmd : u.commandNext = some .final := by
    simp only [State.commandNext, writtenCommand, hu, hui, wrCmd, Bool.false_eq_true, if_false, if_true]
    rfl
  have hac : u.acceptedNext = some .final := by
    simp only [State.acceptedNext, hcmd]
    exact if_pos (by
      show (!t.busy && t.phase == .ready && t.blkcnt != 0#64) = true
      rw [hb, hp, hc1]; rfl)
  have hst : step u = .next (((u.takeTurn []).answer writeAck).finishMessage) := by
    simp only [step, hu, environmentTurn, hui, wrCmd, Bool.false_eq_true, if_false]
    show execFinal ((u.takeTurn []).answer writeAck) = _
    have h0 : ((u.takeTurn []).answer writeAck).blkcnt ≠ 0#64 := by
      show t.blkcnt ≠ 0#64
      rw [hc1]; decide
    have hp' : ((u.takeTurn []).answer writeAck).phase = .ready := hp
    have hb' : ((u.takeTurn []).answer writeAck).busy = false := hb
    simp only [execFinal, hb', hp', if_neg h0, Bool.false_eq_true, if_false, ne_eq, not_true]
  exact ⟨_, .other hr2 hst rfl (show u.initNext = false by simp only [State.initNext, hac]) (by rw [hac]; decide), rfl, hb, rfl⟩

/-- Obligations 38 to 43 (40 also below): steps that accept each command, reject one, complete, and reset. -/
theorem witness_whole_machine_steps :
    (waiting (inFlight .sha256 0) []).engineTurn = true ∧ (inFlight .sha256 0).busy = true ∧
    (waiting State.reset [.stmt (wrCmd 0x00000101)]).initNext = true ∧
    (waiting (ready .sha256) [.access (.write 0x004 0x00000002)]).acceptedNext = some .compress ∧
    (waiting (oneBlock .sha256) [.stmt (wrCmd 0x00000003)]).acceptedNext = some .final ∧
    (waiting (inFlight .sha256 1) [.stmt (wrCmd 0x00000000)]).acceptedNext = some .nop ∧
    (waiting (inFlight .sha256 1) [.stmt (wrCmd 0x00000001)]).acceptedNext = none ∧
    (waiting (ended .sha512) [.reset none]).resetNext = true ∧
    (∃ t, step (waiting (inFlight .sha256 0) []) = .next t) ∧
    (∃ t, step (waiting State.reset [.stmt (wrCmd 0x00000101)]) = .next t) ∧
    (∃ t, step (waiting (ended .sha512) [.reset none]) = .next t) :=
  ⟨rfl, rfl, by decide, by decide, by decide, by decide, by decide, rfl, ⟨_, rfl⟩, ⟨_, rfl⟩, ⟨_, rfl⟩⟩

/-- Obligation 40: a rejected word and a rejected command wait, one by a statement and one by an access;
the step changes ERR. -/
theorem witness_ErrIsSticky :
    (waiting (inFlight .sha256 1) [.access (.write 0x004 0x00000007)]).engineTurn = false ∧
    rejectionCode (inFlight .sha256 1) 0x00000007 = some .badOpcode ∧
    rejectionCode (inFlight .sha256 1) 0x00000001 = some .busy ∧
    rejectionCode State.reset 0x00000003 = some .badPhase ∧
    rejectionCode (ready .sha512) 0x00000003 = some .noBlock ∧
    rejectionCode (ready .sha512) 0x00000102 = some .reservedBits ∧
    (∃ t, step (waiting (ready .sha512) [.stmt (.wr 0x004#10 0x00000003)]) = .next t ∧
      t.err ≠ (ready .sha512).err) := by
  refine ⟨by decide, by decide, by decide, by decide, by decide, by decide, _, rfl, by decide⟩

/-- Obligation 39: an INIT changes H of the reset state, and a reset changes H of an ended message. -/
theorem witness_OnlyInitCompleteAndResetWriteH :
    (∃ t, step (waiting State.reset [.stmt (wrCmd 0x00000101)]) = .next t ∧ t.h ≠ State.reset.h) ∧
    (∃ t, step (waiting (ended .sha512) [.reset none]) = .next t ∧ t.h ≠ (ended .sha512).h) :=
  ⟨⟨_, rfl, by decide +kernel⟩, ⟨_, rfl, by decide +kernel⟩⟩

/-- Obligation 43: a BLK write changes BLK, and an accepted COMPRESS changes L. -/
theorem witness_BlkAndLWriters :
    (∃ t, step (waiting State.reset [.stmt (.wr 0x17C 1)]) = .next t ∧ t.blk ≠ State.reset.blk) ∧
    (∃ t, step (waiting { ready .sha256 with blk := [(0x13F, 1)] } [.stmt (wrCmd 0x00000002)]) = .next t ∧
      t.l ≠ (ready .sha256).l) :=
  ⟨⟨_, rfl, by decide +kernel⟩, ⟨_, rfl, by decide +kernel⟩⟩

/-- Obligation 44: a reset in the turn of a COMPLETE step, with a transaction to cut off. -/
theorem witness_ResetWinsAndClearsEverything :
    (waiting (inFlight .sha512 0) [.reset (some (.write 0x17C 1)), .stmt (.rd 0x008)]).inputs =
      .reset (some (.write 0x17C 1)) :: [.stmt (.rd 0x008)] := rfl

/-- Obligation 45: a statement and an access, with a command and with a word that is none. -/
theorem witness_StepRunsTheDecodedCommand :
    (waiting State.reset [.stmt (.wr 0x004 0x00000101)]).engineTurn = false ∧
    (waiting (inFlight .sha256 1) [.access (.write 0x004 0x00000102)]).engineTurn = false ∧
    decode 0x00000101 = .command (.init .sha512) ∧ decode 0x00000102 = .illegal .reservedBits := by decide

/-- Obligation 46: a WAIT that goes on, and one that makes its read again. -/
theorem witness_PollRepeatsUntilItsConditionHolds :
    (waiting (ready .sha256) [.stmt waitStmt]).engineTurn = false ∧
    memRead (waiting (ready .sha256) [.stmt waitStmt]) 0x008 = some 0x00000001 ∧
    0x00000001#32 &&& 0x00000004 = 0x00000000 ∧
    (waiting (inFlight .sha256 1) [.stmt waitStmt]).engineTurn = false ∧
    memRead (waiting (inFlight .sha256 1) [.stmt waitStmt]) 0x008 = some 0x00000005 ∧
    0x00000005#32 &&& 0x00000004 ≠ 0x00000000 ∧
    Asm.expand .wait = some [.poll 0x008 0x00000004 0x00000000] := by decide +kernel

/-- Obligation 47: the shortest and the longest byte sequence. -/
theorem witness_LdblkLoadsTheBlock :
    State.reset.blk.wf = true ∧ ([] : List Byte).length % 4 = 0 ∧ ([] : List Byte).length ≤ 128 ∧
    (List.replicate 128 (1 : Byte)).length % 4 = 0 ∧ (List.replicate 128 (1 : Byte)).length ≤ 128 := by
  decide +kernel

/-- Obligation 48: the reads of RDDIG in both variants, and a statement after them. -/
theorem witness_RddigReadsTheDigest (v : Variant) :
    (waiting (ended v) ((rddigStmts v).map .stmt ++ [.stmt waitStmt])).phase = .done ∧
    (waiting (ended v) ((rddigStmts v).map .stmt ++ [.stmt waitStmt])).busy = false ∧
    Asm.expand (.rddig v) = some (rddigStmts v) := by cases v <;> decide

/-- Obligations 49, 50, 52: lengths at the boundary between one block and two, and in the domain. -/
theorem witness_padding :
    messageLengthInDomain 55 = true ∧ paddedBody .sha256 55 = 56 ∧ paddedBody .sha256 56 = 120 ∧
    paddedBody .sha512 111 = 112 ∧ paddedBody .sha512 112 = 240 ∧ 55 + 1 ≤ 56 ∧
    56 % Variant.blockBytes .sha256 = Variant.blockBytes .sha256 - Variant.lenBytes .sha256 ∧
    15 < Variant.lenBytes .sha512 := by decide

/-- Obligation 51: the ends of the digits. -/
theorem witness_HexIsTwoLowercaseDigitsAByte : hex [0x09, 0xaf, 0x50] = "09af50".toList := by decide +kernel

/-- Obligation 53: two systems that agree at instance 1, which steps. -/
theorem witness_InstancesAreIndependent :
    (∃ a', System.stepAt [State.reset, ready .sha256] 1 = some (.next a')) ∧
    ([ended .sha512, ready .sha256] : System)[1]? = ([State.reset, ready .sha256] : System)[1]? :=
  ⟨⟨_, rfl⟩, rfl⟩

/-- Obligation 54: from the reset state and from a compression in flight, with the protocol for the
empty message waiting. -/
theorem witness_HostProtocolReadsTheDigest :
    Inv State.reset ∧ Inv zeroInFlight ∧ messageLengthInDomain ([] : List Byte).length = true ∧
    ∃ prog stmts, hostProtocol .sha256 [] = some prog ∧ expandProgram prog = some stmts ∧
      Inv (waiting zeroInFlight (stmts.map .stmt)) := by
  have h1 := witness_EveryStepKeepsTheInvariants.1
  have h0 : Inv State.reset := by
    refine ⟨fun h => (nomatch h), fun _ => by decide, fun h => (nomatch h), fun _ x hx => ?_,
      fun _ h => (nomatch h), by decide, fun _ => rfl⟩
    simp only [State.reset, Vector.mem_replicate] at hx
    rw [hx.2]; rfl
  exact ⟨h0, h1, by decide, _, _, rfl, rfl, ⟨h1.1, h1.2, h1.3, h1.4, h1.5, h1.6, h1.7⟩⟩

/-- Obligation 56: a host that reads STATUS in the middle and a BLKCNT half at the end of a protocol. -/
theorem witness_EveryHostThatFollowsTheProtocol :
    FollowsProtocol .sha256 []
      ((protocolStmts .sha256 [] [3]).flatMap fun st => [st, .rd Config.statusOffset]) ∧
    Stmt.sideRead (.rd 0x010) = true ∧ Stmt.sideRead (.rd 0x200) = false ∧ Stmt.sideRead (.rd 0x004) = false ∧
    Inv zeroInFlight :=
  ⟨⟨by decide, [3], by decide +kernel⟩, by decide, by decide, by decide,
    witness_EveryStepKeepsTheInvariants.1⟩

/-- Obligation 57: a chain of one block in flight, a step that keeps it, and an ended message. -/
theorem witness_EveryStepKeepsTheChain :
    Chained .sha256 [List.replicate 16 0#32] (inFlight .sha256 0) ∧
    (∃ t, step (inFlight .sha256 0) = .next t) ∧ (inFlight .sha256 0).resetNext = false ∧
    (inFlight .sha256 0).initNext = false ∧
    Chained .sha512 [] { ready .sha512 with phase := .done } :=
  ⟨⟨rfl, fun _ => rfl, fun h => (nomatch h), fun _ => ⟨[], _, rfl, rfl, rfl, by decide +kernel⟩⟩, ⟨_, rfl⟩, rfl, by decide,
    ⟨rfl, fun h => (nomatch h), fun _ => ⟨rfl, rfl⟩, fun h => (nomatch h)⟩⟩

end Sys2Proof.Tests
end

section
/-! SUPPORT. What one step can write, field by field: the rule that the statements about PHASE, BUSY, VARIANT, BLKCNT and L share (10_state.md R22-R32). -/

namespace Sys2Proof.Machine

/-- Two states of one message: what only an accepted command, COMPLETE or a reset can change is equal. -/
structure SameMessage (s t : State) : Prop where
  phase : t.phase = s.phase
  busy : t.busy = s.busy
  variant : t.variant = s.variant
  blkcnt : t.blkcnt = s.blkcnt
  h : t.h = s.h
  l : t.l = s.l

theorem SameEngine.sameMessage {s t : State} (h : SameEngine s t) : SameMessage s t :=
  ⟨h.phase, h.busy, h.variant, h.blkcnt, h.h, h.l⟩

theorem SameMessage.reject {s u : State} (h : SameMessage s u) (e : ErrCode) :
    SameMessage s (u.reject e) := ⟨h.phase, h.busy, h.variant, h.blkcnt, h.h, h.l⟩

theorem SameMessage.storeBlkWord {s u : State} (h : SameMessage s u) (k : Nat) (c : Word32) :
    SameMessage s (u.storeBlkWord k c) := ⟨h.phase, h.busy, h.variant, h.blkcnt, h.h, h.l⟩

/-- Who can write the fields of a message: COMPLETE, a reset, or an accepted command; any other turn
leaves them. -/
theorem step_writers {s t : State} (hs : step s = .next t) :
    (s.engineTurn = true ∧ s.resetNext = false ∧ s.acceptedNext = none ∧ t = s.complete) ∨
    (s.engineTurn = false ∧ s.resetNext = true ∧ s.acceptedNext = none ∧
      ∃ cut rest, t = s.applyReset cut rest) ∨
    (s.engineTurn = false ∧ s.resetNext = false ∧ s.acceptedNext = none ∧ SameMessage s t) ∨
    (s.engineTurn = false ∧ s.resetNext = false ∧ ∃ i u, s.acceptedNext = some i ∧ accepts s i = true ∧
      SameEngine s u ∧ t = commandEffect u i) := by
  rcases step_effects hs with ⟨he, hr, ha, _, ht⟩ | ⟨he, hr, ha, _, cut, rest, _, ht⟩ |
    ⟨he, hr, ha, _, u, hu, _, hx⟩ | ⟨he, hr, i, u, ha, hacc, hu, _, ht⟩
  · exact .inl ⟨he, hr, ha, ht⟩
  · exact .inr (.inl ⟨he, hr, ha, cut, rest, ht⟩)
  · refine .inr (.inr (.inl ⟨he, hr, ha, ?_⟩))
    rcases hx with rfl | ⟨e, _, _, _, _, _, rfl⟩ | ⟨k, _, c, _, _, _, rfl⟩
    · exact hu.sameMessage
    · exact hu.sameMessage.reject e
    · exact hu.sameMessage.storeBlkWord k c
  · exact .inr (.inr (.inr ⟨he, hr, i, u, ha, hacc, hu, ht⟩))

/-- A state whose engine is the same accepts the same commands. -/
theorem SameEngine.accepts_eq {s u : State} (h : SameEngine s u) (i : Instr) :
    accepts u i = accepts s i := by
  cases i <;> simp [accepts, h.busy, h.phase, h.blkcnt]

/-- What COMPRESS latches depends on the engine only. -/
theorem SameEngine.latchedBlock_eq {s u : State} (h : SameEngine s u) :
    u.latchedBlock = s.latchedBlock := by
  simp only [State.latchedBlock, State.messageWord, State.blkByte, h.blk]
  rw [h.variant]

/-- While BUSY = 1 every command but NOP is rejected (R24). -/
theorem exec_of_busy {s : State} {i : Instr} (hb : s.busy = true) (hi : i ≠ .nop) :
    exec i s = .next (s.reject .busy) := by
  cases i with
  | nop => exact absurd rfl hi
  | init v => simp [exec, execInit, hb]
  | compress => simp [exec, execCompress, hb]
  | final => simp [exec, execFinal, hb]

/-- A BLK word is written through an admitted offset other than CMD (R43). -/
theorem writeAdmitted_of_locate_blkWord {off : Offset} {k : Fin 32} (h : locate off = .blkWord k) :
    writeAdmitted off = true ∧ off ≠ Config.cmdOffset := by
  have hf := locate_fits off
  rw [h] at hf
  simp only [Location.Fits, beq_iff_eq] at hf
  constructor
  · simp only [writeAdmitted, decide_eq_true_eq]
    omega
  · rintro rfl
    simp at h

end Sys2Proof.Machine
end

section
/-! SUPPORT. STATUS and ID on the bus (10_state.md R22-R27): the STATUS word as a number, and its fields read back from it. -/

namespace Sys2Proof.Machine

/-- The STATUS word as a number: each field times the weight of its lowest bit (R26, R46). -/
theorem statusWord_toNat (s : State) : s.statusWord.toNat =
    s.err.code.toNat * 256 + (vOfVariant s.variant).toNat * 16 + (busyBit s.busy).toNat * 4
      + s.phase.code.toNat := by
  have he := s.err.code.isLt
  have hv := (vOfVariant s.variant).isLt
  have hb := (busyBit s.busy).isLt
  have hp := s.phase.code.isLt
  simp only [State.statusWord, BitVec.toNat_setWidth, toNat_append_add, BitVec.ofNat_eq_ofNat,
    BitVec.toNat_ofNat, Nat.zero_mod]
  omega

/-- The fields of STATUS tile the word: division by a field's weight and the remainder by its size give it
back. -/
theorem statusWord_fields (s : State) :
    s.statusWord.extractLsb' 0 2 = s.phase.code ∧
    s.statusWord.extractLsb' 2 1 = busyBit s.busy ∧
    s.statusWord.extractLsb' 3 1 = 0#1 ∧
    s.statusWord.extractLsb' 4 1 = vOfVariant s.variant ∧
    s.statusWord.extractLsb' 5 3 = 0#3 ∧
    s.statusWord.extractLsb' 8 4 = s.err.code ∧
    s.statusWord.extractLsb' 12 20 = 0#20 := by
  have he := s.err.code.isLt
  have hv := (vOfVariant s.variant).isLt
  have hb := (busyBit s.busy).isLt
  have hp := s.phase.code.isLt
  refine ⟨?_, ?_, ?_, ?_, ?_, ?_, ?_⟩ <;>
    (apply BitVec.eq_of_toNat_eq
     simp only [BitVec.extractLsb'_toNat, Nat.shiftRight_eq_div_pow, statusWord_toNat, BitVec.toNat_ofNat]
     omega)

/-- A bit is the field of width 1 that stands there. -/
theorem getLsbD_eq_extractLsb'_one {w : Nat} (x : BitVec w) (i : Nat) :
    x.getLsbD i = (x.extractLsb' i 1).getLsbD 0 := by simp

/-- Settles O20: every field is the code of its part of the state, and STATUS is no writable offset. -/
theorem statusFieldsAndReservedBits : Obligations.StatusFieldsAndReservedBits := by
  intro s
  obtain ⟨hphase, hbusy, h3, hvariant, h5, herr, h12⟩ := statusWord_fields s
  refine ⟨s.statusWord, rfl, ?_, ?_, ?_, ?_, h5, ?_, h12, fun _ => rfl⟩
  · rw [hphase]; cases s.phase <;> rfl
  · rw [getLsbD_eq_extractLsb'_one, hbusy]; cases s.busy <;> rfl
  · rw [getLsbD_eq_extractLsb'_one, h3]; rfl
  · rw [getLsbD_eq_extractLsb'_one, hvariant]; cases s.variant <;> rfl
  · rw [herr]; cases s.err <;> rfl

/-- Settles O21: ID stands at offset 0, where the map admits a read of the constant and no write. -/
theorem idIsConstant : Obligations.IdIsConstant := fun _ _ => ⟨rfl, rfl⟩

end Sys2Proof.Machine
end

section
/-! SUPPORT. The invariants of 10_state.md R36, kept by each operation. -/

namespace Sys2Proof.Machine

/-- In SHA-256 a word leaves the upper half of its register 0 (R31). -/
theorem upperHalf_zext64 {v : Variant} (hv : v = .sha256) (x : BitVec v.wordBits) :
    upperHalf (zext64 x) = 0#32 := by
  subst hv
  apply BitVec.eq_of_getLsbD_eq
  intro i hi
  simp [upperHalf, zext64]

theorem upperHalf_regsOfWorking {v : Variant} (hv : v = .sha256) (w : Working v.wordBits) :
    ∀ x ∈ regsOfWorking w, upperHalf x = 0#32 := by
  simp [regsOfWorking, upperHalf_zext64 hv]

theorem upperHalf_latchedBlock {s : State} (hv : s.variant = .sha256) :
    ∀ x ∈ s.latchedBlock, upperHalf x = 0#32 := by
  intro x hx
  obtain ⟨t, rfl⟩ := Vector.mem_ofFn.1 hx
  exact upperHalf_zext64 hv _

theorem upperHalf_replicate_zero (n : Nat) : ∀ x ∈ Vector.replicate n 0#64, upperHalf x = 0#32 := by
  intro x hx
  rw [(Vector.mem_replicate.1 hx).2]
  rfl

/-- The turn's preparation keeps the invariants: none speaks of the environment's side, and no turns are
left to count where none were. -/
theorem Inv.of_sameEngine {s u : State} (hi : Inv s) (hu : SameEngine s u)
    (hl : u.latencyLeft = s.latencyLeft - 1) : Inv u where
  busy_is_ready := by rw [hu.busy, hu.phase]; exact hi.busy_is_ready
  idle_is_empty := by rw [hu.busy, hu.phase, hu.blkcnt, hu.err]; exact hi.idle_is_empty
  done_has_block := by rw [hu.busy, hu.phase, hu.blkcnt]; exact hi.done_has_block
  upper_h_zero := by rw [hu.variant, hu.h]; exact hi.upper_h_zero
  upper_l_zero := by rw [hu.variant, hu.busy, hu.l]; exact hi.upper_l_zero
  blk_canonical := by rw [hu.blk]; exact hi.blk_canonical
  idle_counts_no_turns := by
    intro hb
    rw [hl, hi.idle_counts_no_turns (hu.busy ▸ hb)]

/-- COMPLETE comes in READY, so the block it counts is no matter of IDLE or DONE (R124). -/
theorem Inv.complete {s : State} (hi : Inv s) (he : s.engineTurn = true) : Inv s.complete := by
  obtain ⟨hb, hl, _, _⟩ := engineTurn_excludes he
  have hp : s.phase = .ready := hi.busy_is_ready hb
  exact
    { busy_is_ready := fun _ => hp
      idle_is_empty := fun h => by simp [hp] at h
      done_has_block := fun h => by simp [hp] at h
      upper_h_zero := fun hv => upperHalf_regsOfWorking hv _
      upper_l_zero := fun _ h => (nomatch h)
      blk_canonical := hi.blk_canonical
      idle_counts_no_turns := fun _ => hl }

theorem inv_applyReset (s : State) (cut : Option Access) (rest : List Input) :
    Inv (s.applyReset cut rest) where
  busy_is_ready := fun h => (nomatch h)
  idle_is_empty := fun _ => ⟨rfl, rfl, .inl rfl⟩
  done_has_block := fun h => (nomatch h)
  upper_h_zero := fun _ => upperHalf_replicate_zero 8
  upper_l_zero := fun _ h => (nomatch h)
  blk_canonical := ⟨rfl, rfl⟩
  idle_counts_no_turns := fun _ => rfl

/-- Only IDLE restricts the code of a rejection (R36 item 2). -/
theorem Inv.reject {s : State} (hi : Inv s) {e : ErrCode}
    (he : s.phase = .idle → e = .none ∨ e = .badOpcode ∨ e = .reservedBits ∨ e = .badPhase) :
    Inv (s.reject e) :=
  { hi with
    idle_is_empty := fun hp =>
      have ⟨hn, hb, _⟩ := hi.idle_is_empty hp
      ⟨hn, hb, he hp⟩ }

/-- In IDLE with BUSY = 0 a command is rejected neither as BUSY nor as NO_BLOCK (R153). -/
theorem rejectionCode_of_idle {s : State} {c : Word32} {e : ErrCode} (hp : s.phase = .idle)
    (hb : s.busy = false) (h : rejectionCode s c = some e) :
    e = .badOpcode ∨ e = .reservedBits ∨ e = .badPhase := by
  unfold rejectionCode at h
  split at h
  · cases h; exact .inl rfl
  · cases h; exact .inr (.inl rfl)
  · split at h
    · cases h
    · simp only [hb, hp, Bool.false_eq_true, if_false, ne_eq, reduceCtorEq, not_false_eq_true, if_true,
        Option.some.injEq] at h
      exact .inr (.inr h.symm)

theorem Inv.storeBlkWord {s : State} (hi : Inv s) (k : Fin 32) (c : Word32) :
    Inv (s.storeBlkWord k.val c) :=
  { hi with
    blk_canonical := ⟨Memory.wf_storeWord hi.blk_canonical.1 k.val c,
      Memory.onlyBlk_storeWord hi.blk_canonical.2 k.isLt c⟩ }

theorem Inv.startMessage {s : State} (hi : Inv s) (hb : s.busy = false) (v : Variant) :
    Inv (s.startMessage v) where
  busy_is_ready := fun _ => rfl
  idle_is_empty := fun h => (nomatch h)
  done_has_block := fun h => (nomatch h)
  upper_h_zero := fun hv => upperHalf_regsOfWorking hv _
  upper_l_zero := fun _ h => by simp [hb] at h
  blk_canonical := hi.blk_canonical
  idle_counts_no_turns := hi.idle_counts_no_turns

theorem Inv.acceptBlock {s : State} (hi : Inv s) (hp : s.phase = .ready) : Inv s.acceptBlock where
  busy_is_ready := fun _ => hp
  idle_is_empty := fun h => by simp [hp] at h
  done_has_block := fun h => by simp [hp] at h
  upper_h_zero := hi.upper_h_zero
  upper_l_zero := fun hv _ => upperHalf_latchedBlock hv
  blk_canonical := hi.blk_canonical
  idle_counts_no_turns := fun h => (nomatch h)

theorem Inv.finishMessage {s : State} (hi : Inv s) (hb : s.busy = false) (hn : s.blkcnt ≠ 0#64) :
    Inv s.finishMessage where
  busy_is_ready := fun h => by simp [hb] at h
  idle_is_empty := fun h => (nomatch h)
  done_has_block := fun _ => ⟨hb, hn⟩
  upper_h_zero := hi.upper_h_zero
  upper_l_zero := hi.upper_l_zero
  blk_canonical := hi.blk_canonical
  idle_counts_no_turns := hi.idle_counts_no_turns

/-- An accepted command keeps the invariants; its row of R126 is what makes it safe. -/
theorem Inv.commandEffect {s : State} (hi : Inv s) {i : Instr} (ha : accepts s i = true) :
    Inv (commandEffect s i) := by
  rcases (accepts_iff i s).1 ha with rfl | ⟨⟨v, rfl⟩, hb⟩ | ⟨rfl, _, hp⟩ | ⟨rfl, hb, _, hn⟩
  · exact hi
  · exact hi.startMessage hb v
  · exact hi.acceptBlock hp
  · exact hi.finishMessage hb hn

/-- Settles O35: the reset state is a reset of itself. -/
theorem invariantsHoldAtReset : Obligations.InvariantsHoldAtReset :=
  inv_applyReset State.reset none []

/-- Settles O36, by the kinds of step: each operation keeps the invariants. -/
theorem everyStepKeepsTheInvariants : Obligations.EveryStepKeepsTheInvariants := by
  intro s t hi hs
  rcases step_effects hs with ⟨he, _, _, _, rfl⟩ | ⟨_, _, _, _, cut, rest, _, rfl⟩ |
    ⟨_, _, _, _, u, hu, hl, hx⟩ | ⟨_, _, i, u, _, ha, hu, hl, rfl⟩
  · exact hi.complete he
  · exact inv_applyReset s cut rest
  · have hiu : Inv u := hi.of_sameEngine hu hl
    rcases hx with rfl | ⟨e, c, _, _, hc, _, rfl⟩ | ⟨k, _, c, _, _, _, rfl⟩
    · exact hiu
    · refine hiu.reject fun hp => ?_
      have hp : s.phase = .idle := hu.phase ▸ hp
      obtain ⟨_, hb, _⟩ := hi.idle_is_empty hp
      exact .inr (rejectionCode_of_idle hp hb hc)
    · exact hiu.storeBlkWord k c
  · exact (hi.of_sameEngine hu hl).commandEffect (by rwa [hu.accepts_eq])

end Sys2Proof.Machine
end

section
/-! SUPPORT. Who writes PHASE, BUSY, VARIANT, BLKCNT, BLK and L (10_state.md R22-R32, 43_commands.md R116). -/

namespace Sys2Proof.Machine

theorem phase_code_ne_three (p : Phase) : p.code ≠ 3#2 := by cases p <;> decide

/-- Settles O38, by the kinds of step: an accepted command moves PHASE by its row of R116. -/
theorem phaseMovesOnlyForward : Obligations.PhaseMovesOnlyForward := by
  refine ⟨rfl, rfl, rfl, phase_code_ne_three, rfl, fun s t hs => ?_⟩
  rcases step_writers hs with ⟨_, _, _, rfl⟩ | ⟨_, hr, _, cut, rest, rfl⟩ | ⟨_, _, _, hm⟩ |
    ⟨_, _, i, u, hi, ha, hu, rfl⟩
  · exact .inl rfl
  · exact .inr (.inr (.inr ⟨hr, rfl⟩))
  · exact .inl hm.phase
  · rcases (accepts_iff i s).1 ha with rfl | ⟨⟨v, rfl⟩, hb⟩ | ⟨rfl, _, _⟩ | ⟨rfl, hb, hp, hn⟩
    · exact .inl hu.phase
    · exact .inr (.inl ⟨by simp [State.initNext, hi], hb, rfl, rfl⟩)
    · exact .inl hu.phase
    · exact .inr (.inr (.inl ⟨hi, hb, hp, hn, rfl⟩))

/-- An accepted command raises BUSY iff it is COMPRESS, and none lowers it (R24). -/
theorem commandEffect_busy (s : State) (i : Instr) :
    (commandEffect s i).busy = (s.busy || i == .compress) := by
  cases i <;> simp [commandEffect]

/-- Settles O41, by the kinds of step: BUSY follows the accepted command, and COMPLETE and reset clear it. -/
theorem busyRisesByCompressAndFallsByComplete : Obligations.BusyRisesByCompressAndFallsByComplete := by
  refine ⟨rfl, fun s i hb hi => exec_of_busy hb hi, fun s t hs => ?_⟩
  rcases step_writers hs with ⟨he, _, ha, rfl⟩ | ⟨_, hr, ha, cut, rest, rfl⟩ | ⟨he, hr, ha, hm⟩ |
    ⟨he, hr, i, u, ha, _, hu, rfl⟩
  · simp [ha, he]
  · simp [ha, hr]
  · simp +contextual [ha, he, hr, hm.busy]
  · simp +contextual [ha, he, hr, commandEffect_busy, hu.busy]

/-- Settles O42, by the kinds of step; of the accepted commands only INIT writes either field. -/
theorem variantAndBlkcntWriters : Obligations.VariantAndBlkcntWriters := by
  intro s t hs
  rcases step_writers hs with ⟨he, hr, ha, rfl⟩ | ⟨he, hr, ha, cut, rest, rfl⟩ | ⟨he, hr, ha, hm⟩ |
    ⟨he, hr, i, u, ha, _, hu, rfl⟩
  · simp [State.initNext, ha, he, hr]
  · simp [State.initNext, ha, he, hr]
  · simp [State.initNext, ha, he, hr, hm.variant, hm.blkcnt]
  · cases i <;> simp [State.initNext, ha, he, hr, commandEffect, hu.variant, hu.blkcnt]

/-- Only a reset and a BLK write on the port change BLK (R30). -/
theorem step_blk_writers {s t : State} (hs : step s = .next t) (hne : t.blk ≠ s.blk) :
    s.resetNext = true ∨ (s.engineTurn = false ∧ ∃ (k : Fin 32) (off : Offset) (c : Word32) (rest : List Input),
      locate off = .blkWord k ∧ WriteWaits s off c rest) := by
  rcases step_effects hs with ⟨_, _, _, _, rfl⟩ | ⟨_, hr, _⟩ | ⟨he, _, _, _, u, hu, _, hx⟩ |
    ⟨_, _, i, u, _, _, hu, _, rfl⟩
  · exact absurd rfl hne
  · exact .inl hr
  · rcases hx with rfl | ⟨e, _, _, _, _, _, rfl⟩ | ⟨k, off, c, rest, hk, hw, _⟩
    · exact absurd hu.blk hne
    · exact absurd hu.blk hne
    · exact .inr ⟨he, k, off, c, rest, hk, hw⟩
  · cases i <;> exact absurd hu.blk hne

/-- Only a reset and an accepted COMPRESS change L (R32). -/
theorem step_l_writers {s t : State} (hs : step s = .next t) (hne : t.l ≠ s.l) :
    s.resetNext = true ∨ (s.acceptedNext = some .compress ∧ t.l = s.latchedBlock) := by
  rcases step_writers hs with ⟨_, _, _, rfl⟩ | ⟨_, hr, _⟩ | ⟨_, _, _, hm⟩ |
    ⟨_, _, i, u, ha, _, hu, rfl⟩
  · exact absurd rfl hne
  · exact .inl hr
  · exact absurd hm.l hne
  · cases i with
    | compress => exact .inr ⟨ha, hu.latchedBlock_eq⟩
    | nop => exact absurd hu.l hne
    | init v => exact absurd hu.l hne
    | final => exact absurd hu.l hne

/-- Settles O43, by the writers of BLK and of L. -/
theorem blkAndLWriters : Obligations.BlkAndLWriters := by
  intro s t hs
  refine ⟨fun hne => ?_, step_l_writers hs⟩
  rcases step_blk_writers hs hne with hr | ⟨he, k, off, c, rest, hk, hw⟩
  · exact .inl hr
  · obtain ⟨ha, ho⟩ := writeAdmitted_of_locate_blkWord hk
    exact .inr ⟨he, off, c, rest, ha, ho, hw⟩

end Sys2Proof.Machine
end

section
/-! SUPPORT. The BLK and DIGEST words of the register map (20_memory.md R43): the offset of each word, and what a read and a write of it answer. -/

namespace Sys2Proof.Machine

/-- A multiple of 4 inside a range of `n` words is the offset of one of them. -/
theorem exists_word_offset {off : Offset} {base n : Nat} (hb : base % 4 = 0) (h4 : off.toNat % 4 = 0)
    (hlo : base ≤ off.toNat) (hhi : off.toNat < base + 4 * n) :
    ∃ k, k < n ∧ off = BitVec.ofNat 10 (base + 4 * k) := by
  refine ⟨(off.toNat - base) / 4, by omega, ?_⟩
  rw [show base + 4 * ((off.toNat - base) / 4) = off.toNat by omega, BitVec.ofNat_toNat,
    BitVec.setWidth_eq]

/-- An offset that may be read is one of the words listed in R46. -/
theorem offset_of_readAdmitted {off : Offset} (h : readAdmitted off = true) :
    off = 0x000#10 ∨ off = 0x008#10 ∨ off = 0x00C#10 ∨ off = 0x010#10 ∨
      (∃ k, k < 32 ∧ off = BitVec.ofNat 10 (0x100 + 4 * k)) ∨
      (∃ k, k < 16 ∧ off = BitVec.ofNat 10 (0x200 + 4 * k)) := by
  simp only [readAdmitted, decide_eq_true_eq] at h
  obtain ⟨h4, h | h | h | h | h | h⟩ := h
  · exact .inl (BitVec.eq_of_toNat_eq h)
  · exact .inr (.inl (BitVec.eq_of_toNat_eq h))
  · exact .inr (.inr (.inl (BitVec.eq_of_toNat_eq h)))
  · exact .inr (.inr (.inr (.inl (BitVec.eq_of_toNat_eq h))))
  · exact .inr (.inr (.inr (.inr (.inl (exists_word_offset rfl h4 h.1 (by omega))))))
  · exact .inr (.inr (.inr (.inr (.inr (exists_word_offset rfl h4 h.1 (by omega))))))

/-- An offset that may be written is CMD or a BLK word (R47). -/
theorem offset_of_writeAdmitted {off : Offset} (h : writeAdmitted off = true) :
    off = 0x004#10 ∨ ∃ k, k < 32 ∧ off = BitVec.ofNat 10 (0x100 + 4 * k) := by
  simp only [writeAdmitted, decide_eq_true_eq] at h
  obtain ⟨h4, h | h⟩ := h
  · exact .inl (BitVec.eq_of_toNat_eq h)
  · exact .inr (exists_word_offset rfl h4 h.1 (by omega))

theorem memRead_blkWord (s : State) {k : Nat} (hk : k < 32) :
    memRead s (BitVec.ofNat 10 (0x100 + 4 * k)) = some (s.blkWord k) := by
  simp only [memRead, locate_blkWord ⟨k, hk⟩]

theorem memRead_digestWord (s : State) {k : Nat} (hk : k < 16) :
    memRead s (BitVec.ofNat 10 (0x200 + 4 * k)) = some (s.digestWord k) := by
  simp only [memRead, locate_digestWord ⟨k, hk⟩]

theorem memWrite_blkWord (s : State) {k : Nat} (hk : k < 32) (v : Word32) :
    memWrite s (BitVec.ofNat 10 (0x100 + 4 * k)) v = .next (s.storeBlkWord k v) := by
  simp only [memWrite, locate_blkWord ⟨k, hk⟩]

/-- An admitted read answers with its data and changes nothing else (R46). -/
theorem transact_read {s : State} {off : Offset} {d : Word32} (h : memRead s off = some d) :
    transact s (.read off) = .next (s.answer (readAck d)) := by
  simp only [transact, h]

/-- A read that errs outside a program is answered with `err` and goes on (R152, R158). -/
theorem bareAccess_read_err {s : State} {off : Offset} (h : memRead s off = none) :
    bareAccess s (.read off) = .next (s.answer (errReply (.read off))) := by
  simp only [bareAccess, transact, h]

/-- A write errs by its offset alone, so a state that has answered errs where it did before. -/
theorem memWrite_fault_of_fault {s : State} {off : Offset} {v : Word32}
    (h : memWrite s off v = .fault (.busError off)) (t : State) :
    memWrite t off v = .fault (.busError off) :=
  (memWrite_fault_iff t off v).2 ((memWrite_fault_iff s off v).1 h)

/-- A write that errs outside a program is answered with `err` and goes on (R152, R158). -/
theorem bareAccess_write_err {s : State} {off : Offset} {v : Word32}
    (h : memWrite s off v = .fault (.busError off)) :
    bareAccess s (.write off v) = .next (s.answer (errReply (.write off v))) := by
  simp only [bareAccess, transact, memWrite_fault_of_fault h]

/-- Settles O13: each admitted offset reads its row of the map, and the offsets admitted for reading are
those rows. -/
theorem busReadsFollowTheMap : Obligations.BusReadsFollowTheMap := by
  intro s
  refine ⟨rfl, rfl, rfl, rfl, fun k hk => memRead_blkWord s hk, fun k hk => memRead_digestWord s hk,
    fun off hno => ?_, fun off d hd => transact_read hd⟩
  rw [memRead_eq_none_iff, Bool.eq_false_iff]
  exact fun ha => hno (offset_of_readAdmitted ha)

/-- Settles O14: erring is not being admitted, which speaks of the offset alone. -/
theorem busErrorsDependOnTheOffsetAlone : Obligations.BusErrorsDependOnTheOffsetAlone := by
  intro s off v
  refine ⟨?_, ?_, fun hne => ?_, bareAccess_read_err, bareAccess_write_err⟩
  · rw [memRead_eq_none_iff]
    simp only [readAdmitted, decide_eq_false_iff_not]
    omega
  · rw [memWrite_fault_iff]
    simp only [writeAdmitted, decide_eq_false_iff_not]
    omega
  · rw [Ne, memWrite_fault_iff, Bool.not_eq_false] at hne
    exact memWrite_next hne s v

end Sys2Proof.Machine
end

section
/-! SUPPORT. BLK words on the bus (20_memory.md R47, R48): read after write, the lanes, and the message words that a COMPRESS latches (40_word_codec.md R80, R82). -/

namespace Sys2Proof.Machine

/-- A BLK word write stores its bytes in the lanes of R48. -/
theorem Memory.read_storeWord_lanes {m : Memory} (h : m.wf = true) (k : Nat) (v : Word32) :
    (m.storeWord k v).read (Config.blkBase + 4 * k) = v.extractLsb' 24 8 ∧
    (m.storeWord k v).read (Config.blkBase + 4 * k + 1) = v.extractLsb' 16 8 ∧
    (m.storeWord k v).read (Config.blkBase + 4 * k + 2) = v.extractLsb' 8 8 ∧
    (m.storeWord k v).read (Config.blkBase + 4 * k + 3) = v.extractLsb' 0 8 := by
  simp [Memory.read_storeWord h]

/-- A BLK word write leaves every byte outside its word (R47). -/
theorem Memory.read_storeWord_other {m : Memory} (h : m.wf = true) {k a : Nat} (v : Word32)
    (ha : a < Config.blkBase + 4 * k ∨ Config.blkBase + 4 * k + 4 ≤ a) :
    (m.storeWord k v).read a = m.read a := by
  rw [Memory.read_storeWord h, if_neg (by omega), if_neg (by omega), if_neg (by omega), if_neg (by omega)]

theorem blkWord_storeBlkWord_same {s : State} (h : s.blk.wf = true) (k : Nat) (v : Word32) :
    (s.storeBlkWord k v).blkWord k = v := by
  obtain ⟨h24, h16, h8, h0⟩ := Memory.read_storeWord_lanes h k v
  simp only [State.blkWord, State.blkByte, State.storeBlkWord_blk, ← Nat.add_assoc, h24, h16, h8, h0,
    busLanes_extract]

theorem blkWord_storeBlkWord_other {s : State} (h : s.blk.wf = true) {k k' : Nat} (v : Word32)
    (hk : k' ≠ k) : (s.storeBlkWord k v).blkWord k' = s.blkWord k' := by
  simp (disch := omega) only [State.blkWord, State.blkByte, State.storeBlkWord_blk,
    Memory.read_storeWord_other h v]

/-- Settles O15: the store reads back lane by lane, and the offsets admitted for writing are CMD and BLK. -/
theorem busWritesFollowTheMap : Obligations.BusWritesFollowTheMap := by
  intro s v hwf
  refine ⟨fun k hk => ?_, rfl, fun off hno => ?_⟩
  · obtain ⟨h24, h16, h8, h0⟩ := Memory.read_storeWord_lanes hwf k v
    exact ⟨_, memWrite_blkWord s hk v, h24, h16, h8, h0, fun a ha => Memory.read_storeWord_other hwf v ha,
      rfl, rfl, rfl, rfl, rfl, rfl, rfl, ⟨rfl, rfl, rfl, rfl, rfl⟩⟩
  · rw [memWrite_fault_iff, Bool.eq_false_iff]
    exact fun ha => hno (offset_of_writeAdmitted ha)

/-- Settles O16, by read after write on the words of BLK. -/
theorem blkReadsBackWhatWasWritten : Obligations.BlkReadsBackWhatWasWritten := by
  intro s t v k hwf hk ht
  rw [memWrite_blkWord s hk v] at ht
  cases ht
  refine ⟨?_, fun k' hk' hne => ?_⟩
  · rw [memRead_blkWord _ hk, blkWord_storeBlkWord_same hwf]
  · rw [memRead_blkWord _ hk', memRead_blkWord _ hk', blkWord_storeBlkWord_other hwf v hne]

/-- In SHA-256 a message word is the BLK bus word at the same index (R82). -/
theorem messageWord_sha256 (s : State) (t : Nat) : s.messageWord .sha256 t = s.blkWord t := by
  apply BitVec.eq_of_toNat_eq
  have hlt := (s.blkWord t).isLt
  rw [State.blkWord, busLanes_toNat] at hlt ⊢
  rw [State.messageWord, packBytes_toNat]
  simp only [Variant.wordBytes, List.range_succ, List.range_zero, List.nil_append, List.cons_append,
    List.map_cons, List.map_nil, bytesValueFrom_cons, bytesValueFrom_nil, Nat.add_zero, Nat.zero_mul,
    Nat.zero_add]
  exact Nat.mod_eq_of_lt hlt

/-- A run of bytes cut out of BLK, byte by byte. -/
theorem take_drop_blkBytes (s : State) {off n : Nat} (h : off + n ≤ Config.blkBytes) :
    (s.blkBytes.drop off).take n = (List.range n).map fun i => s.blkByte (off + i) := by
  apply List.ext_getElem
  · simp [State.blkBytes]
    omega
  · intro i h1 h2
    simp [State.blkBytes]

/-- A message word inside BLK is `pack_v` of BLK (R80). -/
theorem pack_blkBytes (s : State) (v : Variant) {t : Nat}
    (h : v.wordBytes * t + v.wordBytes ≤ Config.blkBytes) :
    pack v s.blkBytes (v.wordBytes * t) = some (s.messageWord v t) := by
  have hl : s.blkBytes.length = Config.blkBytes := by simp [State.blkBytes]
  rw [pack, if_pos (hl ▸ h), take_drop_blkBytes s h]
  rfl

/-- A COMPRESS that raised BUSY was accepted (R119). -/
theorem eq_acceptBlock_of_busy_rises {s t : State} (hb : s.busy = false) (h : exec .compress s = .next t)
    (ht : t.busy = true) : t = s.acceptBlock := by
  rcases exec_accepted_or_rejected .compress s with ⟨_, he⟩ | ⟨_, e, _, _, he⟩ <;>
    (rw [he] at h; cases h)
  · rfl
  · exact absurd (hb.symm.trans ht) (by decide)

/-- Settles O17: the lanes of the bus word are the bytes of BLK, and so is the word COMPRESS packs. -/
theorem blkBusWordIsPack256 : Obligations.BlkBusWordIsPack256 := by
  intro s k hk
  obtain ⟨h24, h16, h8, h0⟩ := extract_busLanes (s.blkByte (4 * k)) (s.blkByte (4 * k + 1))
    (s.blkByte (4 * k + 2)) (s.blkByte (4 * k + 3))
  refine ⟨s.blkWord k, memRead_blkWord s hk, h24, h16, h8, h0, ?_, fun t hv hb ht hbt hk => ?_⟩
  · rw [← messageWord_sha256]
    have hin : Variant.sha256.wordBytes * k + Variant.sha256.wordBytes ≤ Config.blkBytes := by
      change 4 * k + 4 ≤ 128
      omega
    exact pack_blkBytes s .sha256 hin
  · rw [eq_acceptBlock_of_busy_rises hb ht hbt, ← messageWord_sha256]
    simp only [State.acceptBlock_l, State.latchedBlock, Vector.getElem_ofFn]
    rw [hv]
    rfl

end Sys2Proof.Machine
end

section
/-! SUPPORT. The DIGEST words in terms of H (20_memory.md R49, 43_commands.md R121): the digest bytes run through H in its order, and four bytes in the lanes of a bus word are a slice of their word. -/

namespace Sys2Proof.Machine

/-- Of pieces of equal length put end to end, byte `i` of piece `j`. -/
theorem getD_flatMap_of_length_eq {α β : Type} {f : α → List β} {m : Nat} {l : List α}
    (hf : ∀ x, (f x).length = m) {j i : Nat} (hj : j < l.length) (hi : i < m) (d : β) :
    (l.flatMap f).getD (m * j + i) d = (f l[j]).getD i d := by
  induction l generalizing j with
  | nil => cases hj
  | cons x xs ih =>
    rw [List.flatMap_cons]
    cases j with
    | zero => simpa using List.getD_append (f x) (xs.flatMap f) d i (by rwa [hf])
    | succ j =>
      have hx : m * (j + 1) + i - m = m * j + i := by rw [Nat.mul_succ]; omega
      rw [List.getD_append_right _ _ _ _ (by rw [hf, Nat.mul_succ]; omega), hf, hx]
      exact ih (Nat.lt_of_succ_lt_succ hj)

/-- The digest bytes are the unpacked words of H, in order (R81). -/
theorem digestBytesOf_workingOfRegs (v : Variant) (r : Vector Word64 8) :
    digestBytesOf v (workingOfRegs v.wordBits r) =
      r.toList.flatMap fun x => unpack v (atWidth v.wordBits x) := by
  have hr : r.toList = [r[0], r[1], r[2], r[3], r[4], r[5], r[6], r[7]] := by
    apply List.ext_getElem (by simp)
    intro i h1 h2
    have hi : i < 8 := by simpa using h1
    interval_cases i <;> rfl
  simp [digestBytesOf, workingOfRegs, hr]

theorem length_digestBytesOf (v : Variant) (x : Working v.wordBits) :
    (digestBytesOf v x).length = v.digestBytes := by
  cases v <;> simp [digestBytesOf, length_unpack, Variant.wordBytes, Variant.digestBytes]

/-- Byte `i` of word `j` of the digest view in DONE. -/
theorem digestView_getD_of_done {s : State} (hd : s.phase = .done) {j i : Nat} (hj : j < 8)
    (hi : i < s.variant.wordBytes) :
    s.digestView.getD (s.variant.wordBytes * j + i) 0 =
      (unpack s.variant (atWidth s.variant.wordBits s.h[j])).getD i 0 := by
  have hin : s.variant.wordBytes * j + i < s.variant.digestBytes := by
    revert hi
    cases s.variant <;> simp only [Variant.wordBytes, Variant.digestBytes] <;> omega
  rw [State.digestView, if_pos hd, List.getD_append _ _ _ _ (by rwa [length_digestBytesOf]),
    State.chainingValue, digestBytesOf_workingOfRegs,
    getD_flatMap_of_length_eq (fun x => length_unpack _ _) (by simpa using hj) hi]
  simp

/-- Byte `i` of an unpacked word is the slice of the word that stands there (R78). -/
theorem unpack_getD (v : Variant) (x : BitVec v.wordBits) {i : Nat} (hi : i < v.wordBytes) :
    (unpack v x).getD i 0 = x.extractLsb' (8 * (v.wordBytes - 1 - i)) 8 := by
  have hx : (unpack v x).getD i 0 = (x >>> (8 * (v.wordBytes - 1 - i))).setWidth 8 := by
    simp [unpack, bytesBE, hi]
  rw [hx]
  apply BitVec.eq_of_toNat_eq
  simp

/-- Four bytes of a word from bit `n` up, put in the lanes of a bus word, are 32 bits of the word. -/
theorem busLanes_slices {w : Nat} (x : BitVec w) (n : Nat) :
    busLanes (x.extractLsb' (n + 24) 8) (x.extractLsb' (n + 16) 8) (x.extractLsb' (n + 8) 8)
      (x.extractLsb' n 8) = x.extractLsb' n 32 := by
  have hslice : ∀ m, m ≤ 24 → (x.extractLsb' n 32).extractLsb' m 8 = x.extractLsb' (n + m) 8 := by
    intro m hm
    apply BitVec.eq_of_getLsbD_eq
    intro i hi
    simp only [BitVec.getLsbD_extractLsb', Nat.add_assoc]
    rw [show decide (m + i < 32) = true by simp; omega, Bool.true_and]
  have h := busLanes_extract (x.extractLsb' n 32)
  rwa [hslice 24 (by omega), hslice 16 (by omega), hslice 8 (by omega), hslice 0 (by omega)] at h

/-- Outside DONE every DIGEST word reads 0 (R121). -/
theorem digestWord_of_not_done {s : State} (hd : s.phase ≠ .done) {k : Nat} (hk : k < 16) :
    s.digestWord k = 0#32 := by
  have hz : ∀ i, i < 64 → s.digestView.getD i 0 = 0#8 := fun i hi => by
    rw [State.digestView, if_neg hd, List.getD_replicate _ hi]
  simp (disch := omega) only [State.digestWord, hz]
  rfl

/-- In DONE the DIGEST words past the digest read 0 (R121). -/
theorem digestWord_past_digest {s : State} (hd : s.phase = .done) {k : Nat}
    (hlo : s.variant.digestBytes ≤ 4 * k) (hk : k < 16) : s.digestWord k = 0#32 := by
  have hz : ∀ i, s.variant.digestBytes ≤ i → i < 64 → s.digestView.getD i 0 = 0#8 := fun i h1 h2 => by
    rw [State.digestView, if_pos hd, List.getD_append_right _ _ _ _ (by rwa [length_digestBytesOf]),
      length_digestBytesOf, List.getD_replicate _ (by omega)]
  simp (disch := omega) only [State.digestWord, hz]
  rfl

/-- In DONE the bus word whose four bytes begin at byte `m` of word `j` of the digest is a slice of
`H[j]`. -/
theorem digestWord_of_done {s : State} (hd : s.phase = .done) {j k m : Nat} (hj : j < 8)
    (hk : 4 * k = s.variant.wordBytes * j + m) (hm : m + 4 ≤ s.variant.wordBytes) :
    s.digestWord k =
      (atWidth s.variant.wordBits s.h[j]).extractLsb' (8 * (s.variant.wordBytes - 4 - m)) 32 := by
  have hb : ∀ i, i < 4 → s.digestView.getD (4 * k + i) 0 =
      (atWidth s.variant.wordBits s.h[j]).extractLsb'
        (8 * (s.variant.wordBytes - 4 - m) + 8 * (3 - i)) 8 := fun i hi => by
    rw [hk, Nat.add_assoc, digestView_getD_of_done hd hj (by omega), unpack_getD _ _ (by omega)]
    congr 1
    omega
  rw [State.digestWord, hb 1 (by omega), hb 2 (by omega), hb 3 (by omega),
    show s.digestView.getD (4 * k) 0 = _ from hb 0 (by omega)]
  exact busLanes_slices _ _

/-- In DONE in SHA-256, DIGEST word `j` is the low half of `H[j]`. -/
theorem digestWord_sha256 {s : State} (hd : s.phase = .done) (hv : s.variant = .sha256) (j : Fin 8) :
    s.digestWord j.val = s.h[j].setWidth 32 := by
  rw [digestWord_of_done hd (m := 0) j.isLt (by rw [hv]; rfl) (by rw [hv]; decide), hv]
  exact BitVec.extractLsb'_eq_self

/-- In DONE in SHA-512, DIGEST words `2j` and `2j + 1` are the halves of `H[j]`. -/
theorem digestWord_sha512 {s : State} (hd : s.phase = .done) (hv : s.variant = .sha512) (j : Fin 8) :
    s.digestWord (2 * j.val) = s.h[j].extractLsb' 32 32 ∧
    s.digestWord (2 * j.val + 1) = s.h[j].extractLsb' 0 32 := by
  have hw : s.variant.wordBytes = 8 := by rw [hv]; rfl
  have hx : ∀ x : Word64, atWidth Variant.sha512.wordBits x = x := fun x => BitVec.setWidth_eq x
  rw [digestWord_of_done hd (m := 0) j.isLt (by rw [hw]; omega) (by omega),
    digestWord_of_done hd (m := 4) j.isLt (by rw [hw]; omega) (by omega), hv, hx]
  exact ⟨rfl, rfl⟩

/-- Settles O19, by phase and variant. -/
theorem digestWindowShowsHOnlyWhenDone : Obligations.DigestWindowShowsHOnlyWhenDone := by
  refine fun s => ⟨fun hd k hk => ?_, fun hd hv => ⟨fun k => ?_, fun k h8 hk => ?_⟩, fun hd hv j => ?_⟩
  · rw [memRead_digestWord s hk, digestWord_of_not_done hd hk]
  · rw [memRead_digestWord s (by omega), digestWord_sha256 hd hv]
  · have hlo : s.variant.digestBytes ≤ 4 * k := by
      rw [hv]
      change 32 ≤ 4 * k
      omega
    rw [memRead_digestWord s hk, digestWord_past_digest hd hlo hk]
  · obtain ⟨hhi, hlo⟩ := digestWord_sha512 hd hv j
    rw [show 0x200 + 8 * j.val = 0x200 + 4 * (2 * j.val) by omega,
      show 0x204 + 8 * j.val = 0x200 + 4 * (2 * j.val + 1) by omega,
      memRead_digestWord s (by omega), memRead_digestWord s (by omega), hhi, hlo]
    exact ⟨rfl, rfl⟩

end Sys2Proof.Machine
end

section
/-! SUPPORT. Decoding and encoding (30_encoding.md R61-R65): the accepted words are the encodings, and the pseudocode and the match-and-mask rows say the same. -/

namespace Sys2Proof

theorem opField_eq_iff (c : Word32) (k : BitVec 4) : opField c = k ↔ c.toNat % 16 = k.toNat := by
  rw [← BitVec.toNat_inj, opField_toNat]

/-- A decoded word has OP below 4 and no reserved bit set (R65). -/
theorem fields_of_decode {c : Word32} {i : Instr} (h : decode c = .command i) :
    c.toNat % 16 < 4 ∧ c &&& reservedMask (opField c) = 0#32 := by
  rw [← opField_toNat]
  simp only [decode] at h
  split at h
  · cases h
  · rename_i hop
    split at h
    · cases h
    · rename_i hres
      exact ⟨Nat.not_le.1 hop, not_not.1 hres⟩

/-- R65: "exactly five words are accepted as commands". -/
theorem word_of_decode {c : Word32} {i : Instr} (h : decode c = .command i) :
    c = 0x00000000#32 ∨ c = 0x00000001#32 ∨ c = 0x00000101#32 ∨ c = 0x00000002#32 ∨
      c = 0x00000003#32 := by
  obtain ⟨hop, hres⟩ := fields_of_decode h
  have hnat : c.toNat = 0 ∨ c.toNat = 1 ∨ c.toNat = 257 ∨ c.toNat = 2 ∨ c.toNat = 3 := by
    by_cases h1 : opField c = 1#4
    · have hop1 : c.toNat % 16 = 1 := (opField_eq_iff c 1#4).1 h1
      have hrange := (no_init_reserved_iff c).1 (by simpa [reservedMask, h1] using hres)
      omega
    · have hlt := (no_other_reserved_iff c).1 (by simpa [reservedMask, h1] using hres)
      omega
  simp only [← BitVec.toNat_inj]
  exact hnat

theorem decode_encode (i : Instr) : decode (encode i) = .command i := by
  cases i with
  | init v => cases v <;> decide
  | nop => decide
  | compress => decide
  | final => decide

/-- The five accepted words of R65 are the encodings. -/
theorem exists_encode_iff (c : Word32) : (∃ i, c = encode i) ↔
    c = 0x00000000#32 ∨ c = 0x00000001#32 ∨ c = 0x00000101#32 ∨ c = 0x00000002#32 ∨
      c = 0x00000003#32 := by
  constructor
  · rintro ⟨i, rfl⟩
    cases i with
    | init v => cases v <;> decide
    | nop => decide
    | compress => decide
    | final => decide
  · rintro (rfl | rfl | rfl | rfl | rfl)
    · exact ⟨.nop, rfl⟩
    · exact ⟨.init .sha256, rfl⟩
    · exact ⟨.init .sha512, rfl⟩
    · exact ⟨.compress, rfl⟩
    · exact ⟨.final, rfl⟩

/-- No bit of an accepted word is dropped: it is the encoding of an instruction, which decoding gives
back. -/
theorem encode_of_decode {c : Word32} {i : Instr} (h : decode c = .command i) : encode i = c := by
  obtain ⟨j, rfl⟩ := (exists_encode_iff c).2 (word_of_decode h)
  cases (decode_encode j).symm.trans h
  rfl

theorem decode_eq_command_iff (c : Word32) (i : Instr) : decode c = .command i ↔ c = encode i :=
  ⟨fun h => (encode_of_decode h).symm, fun h => h ▸ decode_encode i⟩

/-- Settles O3: the accepted words are the five encodings. -/
theorem encodeAndDecodeAgree : Obligations.EncodeAndDecodeAgree :=
  ⟨fun i _ => decode_encode i, fun _ _ => encode_of_decode⟩

/-- V is bit 8 of the word (R61), and selects the variant (R63). -/
theorem variantOfV_vField (c : Word32) :
    variantOfV (vField c) = if c.getLsbD 8 then .sha512 else .sha256 := by
  have hbit : c.getLsbD 8 = (vField c).getLsbD 0 := Machine.getLsbD_eq_extractLsb'_one c 8
  rw [hbit]
  generalize vField c = b
  revert b
  decide

/-- The pseudocode of R65, with OP as a number and its two reserved masks apart. -/
theorem decode_eq_pseudocode (c : Word32) :
    decode c =
      (if 4 ≤ c.toNat % 16 then .illegal .badOpcode
       else if c.toNat % 16 = 1 ∧ c &&& 0xFFFFFEF0#32 ≠ 0#32 then .illegal .reservedBits
       else if c.toNat % 16 ≠ 1 ∧ c &&& 0xFFFFFFF0#32 ≠ 0#32 then .illegal .reservedBits
       else if c.toNat % 16 = 0 then .command .nop
       else if c.toNat % 16 = 1 then .command (.init (if c.getLsbD 8 then .sha512 else .sha256))
       else if c.toNat % 16 = 2 then .command .compress
       else .command .final) := by
  have h0 : opField c = 0 ↔ c.toNat % 16 = 0 := opField_eq_iff c 0
  have h1 : opField c = 1 ↔ c.toNat % 16 = 1 := opField_eq_iff c 1
  have h2 : opField c = 2 ↔ c.toNat % 16 = 2 := opField_eq_iff c 2
  simp only [decode, reservedMask, opField_toNat, h0, h1, h2, variantOfV_vField, initReservedMask,
    otherReservedMask]
  by_cases hop : c.toNat % 16 = 1 <;> simp [hop]

/-- The mask of INIT's row leaves bit 8 out, so its match fixes every other bit (R65). -/
theorem init_row_iff (c : Word32) : c &&& 0xFFFFFEFF#32 = 0x00000001#32 ↔
    c = encode (.init (if c.getLsbD 8 then .sha512 else .sha256)) := by
  constructor
  · intro h
    have hsplit : c = (c &&& 0xFFFFFEFF#32) ||| (c &&& BitVec.twoPow 32 8) := by
      rw [← BitVec.and_or_distrib_left]
      exact BitVec.and_allOnes.symm
    rw [h, BitVec.and_twoPow] at hsplit
    cases hb : c.getLsbD 8 <;> (rw [hb] at hsplit; exact hsplit)
  · intro h
    rw [h]
    cases c.getLsbD 8 <;> decide

/-- An INIT's bit 8 is its variant. -/
theorem encode_init_getLsbD (v : Variant) :
    v = if (encode (.init v)).getLsbD 8 then .sha512 else .sha256 := by
  cases v <;> decide

/-- Settles O2: each row is the encoding of its instruction, and the five words are the encodings. -/
theorem decodeFollowsTheDecodingRule : Obligations.DecodeFollowsTheDecodingRule := by
  intro c
  have hfull : c &&& 0xFFFFFFFF#32 = c := BitVec.and_allOnes
  simp only [decode_eq_command_iff, hfull]
  refine ⟨decode_eq_pseudocode c, Iff.rfl, fun v => ?_, Iff.rfl, Iff.rfl, exists_encode_iff c⟩
  rw [init_row_iff]
  constructor
  · rintro rfl
    exact ⟨by rw [← encode_init_getLsbD], encode_init_getLsbD v⟩
  · rintro ⟨hc, rfl⟩
    exact hc

/-- Settles O1: the five command words are encodings, and each of the other five has OP above 3 or a
reserved bit. -/
theorem specCommandWordsDecode : Obligations.SpecCommandWordsDecode := by
  refine ⟨decode_encode .nop, decode_encode (.init .sha256), decode_encode (.init .sha512),
    decode_encode .compress, decode_encode .final, ?_⟩
  decide

end Sys2Proof
end

section
/-! SUPPORT. POLL and WAIT (30_encoding.md R70, R72): one turn of a POLL, and the condition of WAIT as BUSY. -/

namespace Sys2Proof.Machine

theorem step_of_environment {s : State} (he : s.engineTurn = false) : step s = environmentTurn s := by
  rw [step, he]
  rfl

theorem step_poll {s : State} {off : Offset} {mask value : Word32} {rest : List Input}
    (he : s.engineTurn = false) (hi : s.inputs = .stmt (.poll off mask value) :: rest) :
    step s = pollStmt s off mask value rest := by
  simp only [step_of_environment he, environmentTurn, hi]

/-- The mask of WAIT picks BUSY out of STATUS (R24, R72). -/
theorem statusWord_and_wait_mask (s : State) :
    s.statusWord &&& 0x00000004#32 = 0x00000000#32 ↔ s.busy = false := by
  obtain ⟨_, hbusy, _⟩ := statusWord_fields s
  have hmask : s.statusWord &&& 0x00000004#32 = if s.statusWord.getLsbD 2 then 0x00000004#32 else 0#32 :=
    BitVec.and_twoPow s.statusWord 2
  rw [hmask, getLsbD_eq_extractLsb'_one, hbusy]
  cases s.busy <;> decide

/-- Settles O46: both branches of one POLL, and the mask of WAIT. -/
theorem pollRepeatsUntilItsConditionHolds : Obligations.PollRepeatsUntilItsConditionHolds := by
  intro s off mask value d rest he hi hd
  have hstep : step s = pollStmt s off mask value rest := step_poll he hi
  simp only [pollStmt, hd] at hstep
  refine ⟨fun hc => ?_, fun hc => ?_, rfl, fun hw => ?_⟩
  · rw [hstep, if_pos hc]
    rfl
  · rw [hstep, if_neg hc]
    rfl
  · cases hw
    have hstatus : memRead s Config.statusOffset = some s.statusWord := rfl
    cases hstatus.symm.trans hd
    exact statusWord_and_wait_mask s

end Sys2Proof.Machine
end

section
/-! SUPPORT. LDBLK (30_encoding.md R73): four bytes of a sequence as a bus word, and the memory after the words are stored in order. -/

namespace Sys2Proof.Machine

/-- A run of a list, element by element. -/
theorem take_drop_eq_map_getD {α : Type} {l : List α} {off n : Nat} (h : off + n ≤ l.length) (d : α) :
    (l.drop off).take n = (List.range n).map fun i => l.getD (off + i) d := by
  apply List.ext_getElem
  · simp
    omega
  · intro i h1 h2
    have hi : off + i < l.length := by
      simp at h2
      omega
    simp [List.getElem?_eq_getElem hi]

theorem take_drop_four {l : List Byte} {k : Nat} (h : 4 * k + 4 ≤ l.length) :
    (l.drop (4 * k)).take 4 =
      [l.getD (4 * k) 0, l.getD (4 * k + 1) 0, l.getD (4 * k + 2) 0, l.getD (4 * k + 3) 0] :=
  take_drop_eq_map_getD h 0

/-- Packing four bytes puts them in the lanes of R48. -/
theorem packBytes_four (a b c d : Byte) : packBytes 32 [a, b, c, d] = busLanes a b c d := by
  apply BitVec.eq_of_toNat_eq
  have hlt := (busLanes a b c d).isLt
  rw [busLanes_toNat] at hlt ⊢
  simp only [packBytes_toNat, bytesValueFrom_cons, bytesValueFrom_nil, Nat.zero_mul, Nat.zero_add]
  exact Nat.mod_eq_of_lt hlt

theorem bytesWord_eq_busLanes {b : List Byte} {k : Nat} (h : 4 * k + 4 ≤ b.length) :
    bytesWord b k = busLanes (b.getD (4 * k) 0) (b.getD (4 * k + 1) 0) (b.getD (4 * k + 2) 0)
      (b.getD (4 * k + 3) 0) := by
  rw [bytesWord, take_drop_four h, packBytes_four]

/-- A word of LDBLK is `pack_256` of its sequence (R73). -/
theorem pack_sha256_eq_bytesWord {b : List Byte} {k : Nat} (h : 4 * k + 4 ≤ b.length) :
    pack .sha256 b (4 * k) = some (bytesWord b k) := if_pos h

/-- BLK after the first `n` words of a byte sequence are stored, in increasing order (R73). -/
def Memory.storeWords (m : Memory) (b : List Byte) : Nat → Memory
  | 0 => m
  | n + 1 => (m.storeWords b n).storeWord n (bytesWord b n)

theorem Memory.wf_storeWords {m : Memory} (h : m.wf = true) (b : List Byte) (n : Nat) :
    (m.storeWords b n).wf = true := by
  induction n with
  | zero => exact h
  | succ n ih => exact Memory.wf_storeWord ih n _

/-- The stored words read back as the bytes of the sequence, and every later byte as before. -/
theorem Memory.read_storeWords {m : Memory} (h : m.wf = true) {b : List Byte} {n : Nat}
    (hn : 4 * n ≤ b.length) (i : Nat) :
    (m.storeWords b n).read (Config.blkBase + i) =
      if i < 4 * n then b.getD i 0 else m.read (Config.blkBase + i) := by
  induction n with
  | zero => simp [Memory.storeWords]
  | succ n ih =>
    have hwf := Memory.wf_storeWords h b n
    rw [Memory.storeWords]
    by_cases hin : 4 * n ≤ i ∧ i < 4 * n + 4
    · obtain ⟨h24, h16, h8, h0⟩ := extract_busLanes (b.getD (4 * n) 0) (b.getD (4 * n + 1) 0)
        (b.getD (4 * n + 2) 0) (b.getD (4 * n + 3) 0)
      obtain ⟨l24, l16, l8, l0⟩ := Memory.read_storeWord_lanes hwf n (bytesWord b n)
      rw [bytesWord_eq_busLanes hn] at l24 l16 l8 l0 ⊢
      rw [if_pos (by omega)]
      obtain rfl | rfl | rfl | rfl : i = 4 * n ∨ i = 4 * n + 1 ∨ i = 4 * n + 2 ∨ i = 4 * n + 3 := by
        omega
      · exact l24.trans h24
      · exact l16.trans h16
      · exact l8.trans h8
      · exact l0.trans h0
    · rw [Memory.read_storeWord_other hwf _ (by omega), ih (by omega)]
      simp only [show i < 4 * (n + 1) ↔ i < 4 * n by omega]

theorem writeAll_append {s t : State} {xs : List Stmt} (ys : List Stmt) (h : writeAll s xs = some t) :
    writeAll s (xs ++ ys) = writeAll t ys := by
  induction xs generalizing s with
  | nil => cases h; rfl
  | cons x xs ih =>
    cases x with
    | wr off v =>
      rw [writeAll] at h
      rw [List.cons_append, writeAll]
      cases hm : memWrite s off v with
      | next u => rw [hm] at h; exact ih h
      | fault r => rw [hm] at h; cases h
      | refused r => rw [hm] at h; cases h
    | rd off => cases h
    | poll off mask value => cases h

/-- The first `n` writes of LDBLK store the first `n` words and leave the rest of the state (R73). -/
theorem writeAll_ldblk_words (s : State) (b : List Byte) {n : Nat} (hn : n ≤ 32) :
    writeAll s ((List.range n).map fun k =>
        .wr (BitVec.ofNat 10 (Config.blkBase + 4 * k)) (bytesWord b k)) =
      some { s with blk := s.blk.storeWords b n } := by
  induction n with
  | zero => rfl
  | succ n ih =>
    rw [List.range_succ, List.map_append, writeAll_append _ (ih (by omega))]
    simp only [List.map_cons, List.map_nil, writeAll]
    rw [show Config.blkBase = 0x100 from rfl, memWrite_blkWord _ (by omega)]
    rfl

/-- Settles O47: the writes one after the other, and the memory they leave read byte by byte. -/
theorem ldblkLoadsTheBlock : Obligations.LdblkLoadsTheBlock := by
  intro s b hwf h4 hlen
  have hbytes : 4 * (b.length / 4) = b.length := by omega
  refine ⟨ldblkStmts b, if_pos (decide_eq_true ⟨h4, hlen⟩), by simp [ldblkStmts], fun k hk => ?_, _,
    writeAll_ldblk_words s b (by omega), fun i => ?_, rfl, rfl, rfl, rfl, rfl, rfl, rfl,
    ⟨rfl, rfl, rfl, rfl, rfl⟩⟩
  · refine ⟨bytesWord b k, pack_sha256_eq_bytesWord (by omega), ?_⟩
    simp [ldblkStmts, hk, Config.blkBase]
  · have hread := Memory.read_storeWords hwf hbytes.le i
    rwa [hbytes] at hread

end Sys2Proof.Machine
end

section
/-! SUPPORT. RDDIG (30_encoding.md R74): the run of a list of reads, and the DIGEST words as the digest bytes in groups of four. -/

namespace Sys2Proof.Machine

theorem run_succ_of_step {s t : State} (h : step s = .next t) (k : Nat) :
    Sys2Proof.core.run (k + 1) s = Sys2Proof.core.run k t := by
  simp only [Host.Core.run, show Sys2Proof.core.step s = .next t from h]

theorem engineTurn_of_not_busy {s : State} (h : s.busy = false) : s.engineTurn = false := by
  simp [State.engineTurn, h]

/-- The state after an RD statement whose read answers `d` (R69). -/
def State.afterRead (s : State) (d : Word32) (rest : List Input) : State :=
  ((s.takeTurn rest).answer (readAck d)).recordRead d

theorem State.afterRead_same (s : State) (d : Word32) (rest : List Input) :
    SameEngine s (s.afterRead d rest) := ⟨rfl, rfl, rfl, rfl, rfl, rfl, rfl, rfl, rfl, rfl⟩

/-- A read returns what the engine holds (R46). -/
theorem SameEngine.memRead_eq {s u : State} (h : SameEngine s u) (off : Offset) :
    memRead u off = memRead s off := by
  have hstatus : u.statusWord = s.statusWord := by
    simp only [State.statusWord, h.err, h.variant, h.busy, h.phase]
  have hblk : ∀ k, u.blkWord k = s.blkWord k := fun k => by
    simp only [State.blkWord, State.blkByte, h.blk]
  have hview : u.digestView = s.digestView := by
    simp only [State.digestView, State.chainingValue]
    rw [h.phase, h.variant, h.h]
  simp only [memRead, State.digestWord, hstatus, h.blkcnt, hblk, hview]

theorem step_rd {s : State} {off : Offset} {d : Word32} {rest : List Input}
    (he : s.engineTurn = false) (hi : s.inputs = .stmt (.rd off) :: rest)
    (hd : memRead s off = some d) : step s = .next (s.afterRead d rest) := by
  have hu : SameEngine s (s.takeTurn rest) := ⟨rfl, rfl, rfl, rfl, rfl, rfl, rfl, rfl, rfl, rfl⟩
  simp only [step_of_environment he, environmentTurn, hi, readStmt, hu.memRead_eq, hd]
  rfl

/-- A run of RD statements that the map admits records what each reads, in order, and leaves the engine
(R69). -/
theorem run_reads {s : State} (hb : s.busy = false) {off : Nat → Offset} {word : Nat → Word32}
    (ks : List Nat) (rest : List Input) (hi : s.inputs = (ks.map fun k => .rd (off k)).map .stmt ++ rest)
    (hd : ∀ k ∈ ks, memRead s (off k) = some (word k)) :
    ∃ t, Sys2Proof.core.run ks.length s = .next t ∧ State.reads t = s.reads ++ ks.map word ∧
      State.inputs t = rest := by
  induction ks generalizing s with
  | nil => exact ⟨s, rfl, by simp, hi⟩
  | cons k ks ih =>
    have hstep := step_rd (engineTurn_of_not_busy hb) hi (hd k List.mem_cons_self)
    obtain ⟨t, hrun, hreads, hrest⟩ := ih (s := s.afterRead (word k) _) hb rfl fun j hj => by
      rw [(s.afterRead_same _ _).memRead_eq, hd j (List.mem_cons_of_mem _ hj)]
    refine ⟨t, (run_succ_of_step hstep _).trans hrun, ?_, hrest⟩
    rw [hreads]
    simp [State.afterRead]

/-- A list cut into pieces of length `m`, put end to end again. -/
theorem flatMap_range_take_drop {α : Type} (l : List α) (m n : Nat) :
    ((List.range n).flatMap fun k => (l.drop (m * k)).take m) = l.take (m * n) := by
  induction n with
  | zero => simp
  | succ n ih =>
    rw [List.range_succ, List.flatMap_append, ih, Nat.mul_succ, List.take_add]
    simp

theorem unpack_sha256_busLanes (a b c d : Byte) : unpack .sha256 (busLanes a b c d) = [a, b, c, d] := by
  have hslices : ∀ x : Word32, unpack .sha256 x =
      [x.extractLsb' 24 8, x.extractLsb' 16 8, x.extractLsb' 8 8, x.extractLsb' 0 8] := fun x => by
    simp only [← BitVec.setWidth_ushiftRight_eq_extractLsb]
    rfl
  obtain ⟨h24, h16, h8, h0⟩ := extract_busLanes a b c d
  rw [hslices, h24, h16, h8, h0]

/-- In DONE the bytes of DIGEST word `k` are bytes `4k` to `4k + 3` of the digest (R49, R121). -/
theorem unpack_digestWord_of_done {s : State} (hd : s.phase = .done) {k : Nat}
    (hk : 4 * k + 4 ≤ s.variant.digestBytes) :
    unpack .sha256 (s.digestWord k) =
      ((digestBytesOf s.variant s.chainingValue).drop (4 * k)).take 4 := by
  have hlen := length_digestBytesOf s.variant s.chainingValue
  have hview : ∀ i, i < s.variant.digestBytes →
      s.digestView.getD i 0 = (digestBytesOf s.variant s.chainingValue).getD i 0 := fun i hi => by
    rw [State.digestView, if_pos hd, List.getD_append _ _ _ _ (by rwa [hlen])]
  rw [State.digestWord, unpack_sha256_busLanes, take_drop_four (by rwa [hlen]), hview _ (by omega),
    hview _ (by omega), hview _ (by omega), hview _ (by omega)]

/-- In DONE the DIGEST words, most significant byte first, are the digest (R74). -/
theorem unpack_digestWords_of_done {s : State} (hd : s.phase = .done) :
    ((List.range (s.variant.digestBytes / 4)).map s.digestWord).flatMap (unpack .sha256) =
      digestBytesOf s.variant s.chainingValue := by
  have hwords : 4 * (s.variant.digestBytes / 4) = s.variant.digestBytes := by
    cases s.variant <;> rfl
  rw [List.flatMap_map, List.flatMap_congr (g := fun k =>
    ((digestBytesOf s.variant s.chainingValue).drop (4 * k)).take 4), flatMap_range_take_drop, hwords,
    ← length_digestBytesOf s.variant s.chainingValue, List.take_length]
  intro k hk
  have hk := List.mem_range.1 hk
  exact unpack_digestWord_of_done hd (by omega)

/-- The digest fits in the sixteen words of DIGEST (R43). -/
theorem digestWords_le (v : Variant) : v.digestBytes / 4 ≤ 16 := by cases v <;> decide

theorem expand_rddig (v : Variant) : Asm.expand (.rddig v) = some (rddigStmts v) := rfl

/-- Settles O48: the reads run one after the other, and their words are the digest in groups of four. -/
theorem rddigReadsTheDigest : Obligations.RddigReadsTheDigest := by
  refine ⟨fun v => ⟨rddigStmts v, expand_rddig v, by cases v <;> rfl, fun k hk => ?_⟩,
    fun s stmts rest hd hb hx hi => ?_⟩
  · have hk : k < v.digestBytes / 4 := by simpa [rddigStmts] using hk
    simp [rddigStmts, hk, digestBase]
  · cases (expand_rddig s.variant).symm.trans hx
    obtain ⟨t, hrun, hreads, hrest⟩ := run_reads hb (word := s.digestWord) _ rest hi fun k hk =>
      memRead_digestWord s ((List.mem_range.1 hk).trans_le (digestWords_le s.variant))
    refine ⟨t, _, ?_, hreads, by simp, unpack_digestWords_of_done hd, hrest⟩
    simpa [rddigStmts] using hrun

end Sys2Proof.Machine
end

section
/-! SUPPORT. The word codec (40_word_codec.md R76-R79): packing and unpacking recurse on the last byte, so a pack is a sum of bytes and the two are inverse; every rule below is one of numbers. -/

namespace Sys2Proof.Machine

theorem two_pow_eight_mul_succ (n : Nat) : 2 ^ (8 * (n + 1)) = 2 ^ (8 * n) * 256 := by
  rw [Nat.mul_succ, Nat.pow_add]

theorem bytesValueFrom_append (n : Nat) (bs cs : List Byte) :
    bytesValueFrom n (bs ++ cs) = bytesValueFrom (bytesValueFrom n bs) cs := List.foldl_append

/-- What stands before a run of bytes moves up by their number. -/
theorem bytesValueFrom_eq_add (n : Nat) (bs : List Byte) :
    bytesValueFrom n bs = n * 2 ^ (8 * bs.length) + bytesValueFrom 0 bs := by
  induction bs generalizing n with
  | nil => simp
  | cons b bs ih =>
    rw [bytesValueFrom_cons, bytesValueFrom_cons, ih, ih (0 * 256 + b.toNat), List.length_cons,
      two_pow_eight_mul_succ]
    ring

theorem bytesValueFrom_concat (n : Nat) (bs : List Byte) (b : Byte) :
    bytesValueFrom n (bs ++ [b]) = bytesValueFrom n bs * 256 + b.toNat := bytesValueFrom_append n bs [b]

theorem bytesValueFrom_lt (bs : List Byte) : bytesValueFrom 0 bs < 2 ^ (8 * bs.length) := by
  induction bs using List.reverseRecOn with
  | nil => simp
  | append_singleton bs b ih =>
    have hb := b.isLt
    rw [bytesValueFrom_concat, List.length_append, List.length_singleton, two_pow_eight_mul_succ]
    omega

/-- Bytes given by their index spell the sum of R76. -/
theorem bytesValueFrom_map_range (f : Nat → Byte) (n : Nat) :
    bytesValueFrom 0 ((List.range n).map f) =
      ((List.range n).map fun i => (f i).toNat * 2 ^ (8 * (n - 1 - i))).sum := by
  induction n with
  | zero => rfl
  | succ n ih =>
    have hshift : ∀ i ∈ List.range n, (f i).toNat * 2 ^ (8 * (n + 1 - 1 - i)) =
        (f i).toNat * 2 ^ (8 * (n - 1 - i)) * 256 := fun i hi => by
      have hi := List.mem_range.1 hi
      rw [show 8 * (n + 1 - 1 - i) = 8 * (n - 1 - i) + 8 by omega, Nat.pow_add, Nat.mul_assoc]
    rw [List.range_succ, List.map_append, List.map_append, List.sum_append, List.map_congr_left hshift,
      List.sum_map_mul_right, ← ih, List.map_singleton, bytesValueFrom_concat]
    simp

/-- Bytes that fit in the word are packed without loss. -/
theorem packBytes_toNat_of_fits {w : Nat} {bs : List Byte} (h : 8 * bs.length ≤ w) :
    (packBytes w bs).toNat = bytesValueFrom 0 bs := by
  rw [packBytes_toNat]
  exact Nat.mod_eq_of_lt ((bytesValueFrom_lt bs).trans_le (Nat.pow_le_pow_right (by decide) h))

/-- Two packed runs side by side are the run of both packed. -/
theorem packBytes_append {m n : Nat} {bs cs : List Byte} (hb : 8 * bs.length = m) (hc : 8 * cs.length = n) :
    packBytes (m + n) (bs ++ cs) = packBytes m bs ++ packBytes n cs := by
  apply BitVec.eq_of_toNat_eq
  rw [toNat_append_add, packBytes_toNat_of_fits hb.le, packBytes_toNat_of_fits hc.le,
    packBytes_toNat_of_fits (by rw [List.length_append]; omega), bytesValueFrom_append,
    bytesValueFrom_eq_add, hc]

/-- The last byte of a word is its low one, and the bytes before it are those of the word shifted. -/
theorem bytesBE_succ {w : Nat} (n : Nat) (x : BitVec w) :
    bytesBE (n + 1) x = bytesBE n (x >>> 8) ++ [x.setWidth 8] := by
  have hshift : ∀ i ∈ List.range n, (x >>> (8 * (n + 1 - 1 - i))).setWidth 8 =
      ((x >>> 8) >>> (8 * (n - 1 - i))).setWidth 8 := fun i hi => by
    have hi := List.mem_range.1 hi
    rw [← BitVec.shiftRight_add, show 8 + 8 * (n - 1 - i) = 8 * (n + 1 - 1 - i) by omega]
  rw [bytesBE, List.range_succ, List.map_append, List.map_congr_left hshift]
  simp [bytesBE]

/-- The bytes of a word spell its low bits. -/
theorem bytesValueFrom_bytesBE {w : Nat} (n : Nat) (x : BitVec w) :
    bytesValueFrom 0 (bytesBE n x) = x.toNat % 2 ^ (8 * n) := by
  induction n generalizing x with
  | zero => simp [bytesBE, Nat.mod_one]
  | succ n ih =>
    rw [bytesBE_succ, bytesValueFrom_concat, ih, BitVec.toNat_ushiftRight, Nat.shiftRight_eq_div_pow,
      BitVec.toNat_setWidth, two_pow_eight_mul_succ, Nat.mul_comm (2 ^ (8 * n)), Nat.mod_mul]
    simp only [Nat.reducePow]
    omega

/-- Bytes that fit in the word are unpacked as they were packed. -/
theorem bytesBE_packBytes {w : Nat} {bs : List Byte} (h : 8 * bs.length ≤ w) :
    bytesBE bs.length (packBytes w bs) = bs := by
  induction bs using List.reverseRecOn with
  | nil => rfl
  | append_singleton bs b ih =>
    have hbs : 8 * bs.length ≤ w := by
      simp only [List.length_append] at h
      omega
    have hval : (packBytes w (bs ++ [b])).toNat = (packBytes w bs).toNat * 256 + b.toNat := by
      rw [packBytes_toNat_of_fits h, packBytes_toNat_of_fits hbs, bytesValueFrom_concat]
    have hlt := b.isLt
    have hhigh : packBytes w (bs ++ [b]) >>> 8 = packBytes w bs := by
      apply BitVec.eq_of_toNat_eq
      rw [BitVec.toNat_ushiftRight, Nat.shiftRight_eq_div_pow, hval]
      omega
    have hlow : (packBytes w (bs ++ [b])).setWidth 8 = b := by
      apply BitVec.eq_of_toNat_eq
      rw [BitVec.toNat_setWidth, hval]
      omega
    rw [List.length_append, List.length_singleton, bytesBE_succ, hhigh, hlow, ih hbs]

theorem wordBits_eq (v : Variant) : v.wordBits = 8 * v.wordBytes := by cases v <;> rfl

theorem pack_of_inBounds {v : Variant} {b : List Byte} {off : Nat} (h : off + v.wordBytes ≤ b.length) :
    pack v b off = some (packBytes v.wordBits ((b.drop off).take v.wordBytes)) := if_pos h

theorem length_take_drop {v : Variant} {b : List Byte} {off : Nat} (h : off + v.wordBytes ≤ b.length) :
    ((b.drop off).take v.wordBytes).length = v.wordBytes := by
  rw [List.length_take, List.length_drop]
  omega

theorem packBytes_unpack (v : Variant) (x : BitVec v.wordBits) : packBytes v.wordBits (unpack v x) = x := by
  apply BitVec.eq_of_toNat_eq
  have hx : x.toNat < 2 ^ (8 * v.wordBytes) := wordBits_eq v ▸ x.isLt
  rw [packBytes_toNat_of_fits (by rw [length_unpack, wordBits_eq]), unpack, bytesValueFrom_bytesBE,
    Nat.mod_eq_of_lt hx]

theorem unpack_packBytes {v : Variant} {bs : List Byte} (h : bs.length = v.wordBytes) :
    unpack v (packBytes v.wordBits bs) = bs := by
  rw [unpack, ← h]
  exact bytesBE_packBytes (by rw [h, wordBits_eq])

/-- Settles O24: the slice that is packed, byte by byte, spells the sum. -/
theorem packIsTheBigEndianSum : Obligations.PackIsTheBigEndianSum := by
  intro v b off
  refine ⟨fun h => ⟨_, pack_of_inBounds h, ?_⟩, fun h => if_neg (Nat.not_le.2 h)⟩
  rw [packBytes_toNat_of_fits (by rw [length_take_drop h, wordBits_eq]), take_drop_eq_map_getD h 0,
    bytesValueFrom_map_range]

/-- Settles O25: a byte of an unpacked word is a slice of it. -/
theorem unpackIsMostSignificantFirst : Obligations.UnpackIsMostSignificantFirst := by
  intro v x
  refine ⟨length_unpack v x, fun i hi => ?_⟩
  rw [unpack_getD v x hi, BitVec.extractLsb'_toNat, Nat.shiftRight_eq_div_pow]

/-- Settles O26, by the two inverse laws on sequences of `ws` bytes. -/
theorem packAndUnpackAreInverse : Obligations.PackAndUnpackAreInverse := by
  intro v
  refine ⟨fun x => ?_, fun b off h => ⟨_, pack_of_inBounds h, unpack_packBytes (length_take_drop h)⟩⟩
  have hl := length_unpack v x
  rw [pack_of_inBounds (by omega), List.drop_zero, List.take_of_length_le hl.le, packBytes_unpack]

end Sys2Proof.Machine
end

section
/-! SUPPORT. The message words of BLK (40_word_codec.md R80-R83): as bus words in both variants, and which bytes they read. -/

namespace Sys2Proof.Machine

/-- In SHA-512 a message word is two of SHA-256, the one at the lower offset high (R83). -/
theorem messageWord_sha512 (s : State) (t : Nat) :
    s.messageWord .sha512 t = s.messageWord .sha256 (2 * t) ++ s.messageWord .sha256 (2 * t + 1) := by
  have hbytes : ((List.range 8).map fun i => s.blkByte (8 * t + i)) =
      ((List.range 4).map fun i => s.blkByte (4 * (2 * t) + i)) ++
      ((List.range 4).map fun i => s.blkByte (4 * (2 * t + 1) + i)) := by
    rw [show 8 = 4 + 4 from rfl, List.range_add, List.map_append, List.map_map]
    congr 1 <;> refine List.map_congr_left fun i _ => congrArg s.blkByte ?_
    · omega
    · simp only
      omega
  exact (congrArg (packBytes 64) hbytes).trans (packBytes_append (m := 32) (n := 32) (by simp) (by simp))

/-- Settles O27, by the words of SHA-256 that make one of SHA-512. -/
theorem messageWordsAreBusWords : Obligations.MessageWordsAreBusWords := fun s t _ =>
  ⟨messageWord_sha256 s t, by rw [messageWord_sha512, messageWord_sha256, messageWord_sha256]⟩

/-- A message word lies inside the block (R5, R77). -/
theorem messageByte_lt_blockBytes {v : Variant} {t i : Nat} (ht : t < 16) (hi : i < v.wordBytes) :
    v.wordBytes * t + i < v.blockBytes := by
  revert hi
  cases v <;> simp only [Variant.wordBytes, Variant.blockBytes] <;> omega

/-- The words latched are those of any state whose BLK agrees on the bytes of the block (R80). -/
theorem latchedBlock_congr {s s' : State} (hv : s'.variant = s.variant)
    (hb : ∀ i, i < s.variant.blockBytes → s'.blkByte i = s.blkByte i) :
    s'.latchedBlock = s.latchedBlock := by
  have hword : ∀ t : Fin 16, s'.messageWord s.variant t = s.messageWord s.variant t := fun t =>
    congrArg (packBytes s.variant.wordBits) (List.map_congr_left fun i hi =>
      hb _ (messageByte_lt_blockBytes t.isLt (List.mem_range.1 hi)))
  rw [State.latchedBlock, State.latchedBlock, hv]
  simp only [hword]

/-- Settles O28: both COMPRESS were accepted, and each latched the words of its own block. -/
theorem compressReadsOnlyItsBlock : Obligations.CompressReadsOnlyItsBlock := by
  intro s s' t t' hv hs hs' ht hb ht' hb' hblk
  rw [eq_acceptBlock_of_busy_rises hb hs ht, eq_acceptBlock_of_busy_rises hb' hs' ht',
    State.acceptBlock_l, State.acceptBlock_l, latchedBlock_congr hv hblk]

end Sys2Proof.Machine
end

section
/-! SUPPORT. The schedule expander (41_schedule_expander.md R85-R90): the sigma functions as rotations, the schedule as a list that only grows at its end, and what of H and L a COMPLETE step reads. -/

namespace Sys2Proof.Machine

/-- The two shifts of R8 are a rotation within the width. -/
theorem rotr_eq_rotateRight {w : Nat} (x : BitVec w) {n : Nat} (h : n < w) : rotr x n = x.rotateRight n := by
  rw [rotr, BitVec.rotateRight_def, Nat.mod_eq_of_lt h]

/-- The shape of the small sigmas: two rotations and a shift (R86, R87). -/
theorem rotr_xor_rotr_xor_shift {w : Nat} (x : BitVec w) {l m : Nat} (hl : l < w) (hm : m < w) (n : Nat) :
    rotr x l ^^^ rotr x m ^^^ (x >>> n) = x.rotateRight l ^^^ x.rotateRight m ^^^ (x >>> n) := by
  rw [rotr_eq_rotateRight x hl, rotr_eq_rotateRight x hm]

/-- The shape of the big sigmas: three rotations (R97, R100). -/
theorem rotr_xor_rotr_xor_rotr {w : Nat} (x : BitVec w) {l m n : Nat} (hl : l < w) (hm : m < w)
    (hn : n < w) :
    rotr x l ^^^ rotr x m ^^^ rotr x n = x.rotateRight l ^^^ x.rotateRight m ^^^ x.rotateRight n := by
  rw [rotr_eq_rotateRight x hl, rotr_eq_rotateRight x hm, rotr_eq_rotateRight x hn]

/-- Settles O29: each amount of R5 is inside its width, so the shifts of R8 rotate. -/
theorem sigmaFunctions : Obligations.SigmaFunctions := by
  refine ⟨fun x => ⟨?_, ?_, ?_, ?_⟩, fun x => ⟨?_, ?_, ?_, ?_⟩⟩
  · exact rotr_xor_rotr_xor_shift x (by decide) (by decide) 3
  · exact rotr_xor_rotr_xor_shift x (by decide) (by decide) 10
  · exact rotr_xor_rotr_xor_rotr x (by decide) (by decide) (by decide)
  · exact rotr_xor_rotr_xor_rotr x (by decide) (by decide) (by decide)
  · exact rotr_xor_rotr_xor_shift x (by decide) (by decide) 7
  · exact rotr_xor_rotr_xor_shift x (by decide) (by decide) 6
  · exact rotr_xor_rotr_xor_rotr x (by decide) (by decide) (by decide)
  · exact rotr_xor_rotr_xor_rotr x (by decide) (by decide) (by decide)

@[simp] theorem length_extendSchedule (v : Variant) (n : Nat) (ws : List (BitVec v.wordBits)) :
    (extendSchedule v n ws).length = ws.length + n := by
  induction n generalizing ws with
  | zero => rfl
  | succ n ih => simp [extendSchedule, ih, Nat.add_right_comm, Nat.add_assoc]

/-- The words already there stay: "every word is written once" (R88). -/
theorem prefix_extendSchedule (v : Variant) (n : Nat) (ws : List (BitVec v.wordBits)) :
    ws <+: extendSchedule v n ws := by
  induction n generalizing ws with
  | zero => exact List.prefix_rfl
  | succ n ih => exact (List.prefix_append ws _).trans (ih _)

/-- An element of an initial part is that of the whole list. -/
theorem getD_of_prefix {α : Type} {l₁ l₂ : List α} (h : l₁ <+: l₂) {j : Nat} (hj : j < l₁.length) (d : α) :
    l₂.getD j d = l₁.getD j d := by
  obtain ⟨t, rfl⟩ := h
  exact List.getD_append l₁ t d j hj

/-- Each word that is written is the next word of those before it. -/
theorem getD_extendSchedule (v : Variant) {n : Nat} {ws : List (BitVec v.wordBits)} {j : Nat}
    (hlo : ws.length ≤ j) (hhi : j < ws.length + n) :
    (extendSchedule v n ws).getD j 0 = nextScheduleWord v ((extendSchedule v n ws).take j) := by
  induction n generalizing ws with
  | zero => omega
  | succ n ih =>
    rcases hlo.eq_or_lt with rfl | hlt
    · rw [← List.prefix_iff_eq_take.1 (prefix_extendSchedule v (n + 1) ws), extendSchedule,
        getD_of_prefix (prefix_extendSchedule v n _) (by simp), List.getD_append_right _ _ _ _ le_rfl,
        Nat.sub_self]
      rfl
    · exact ih (by simpa using hlt) (by simpa [Nat.add_assoc, Nat.add_comm] using hhi)

/-- The recurrence of R88 at word `j`, read from a longer list. -/
theorem nextScheduleWord_take (v : Variant) {ws : List (BitVec v.wordBits)} {j : Nat} (hlo : 16 ≤ j)
    (hhi : j ≤ ws.length) : nextScheduleWord v (ws.take j) =
      ws.getD (j - 16) 0 + smallSigma0 v (ws.getD (j - 15) 0) + ws.getD (j - 7) 0
        + smallSigma1 v (ws.getD (j - 2) 0) := by
  have hlen : (ws.take j).length = j := List.length_take_of_le hhi
  have hget : ∀ i, i < j → ws.getD i 0 = (ws.take j).getD i 0 := fun i hi =>
    getD_of_prefix (List.take_prefix j ws) (by rwa [hlen]) 0
  rw [nextScheduleWord, hlen, hget _ (by omega), hget _ (by omega), hget _ (by omega), hget _ (by omega)]

/-- Settles O31: the schedule starts with the block, and every later word was the next one when it was
written. -/
theorem scheduleRecurrence : Obligations.ScheduleRecurrence := by
  intro v ls hls
  have hrounds : ls.length + (v.rounds - 16) = v.rounds := by
    rw [hls]
    cases v <;> rfl
  have hlen : (expand v ls).length = v.rounds := by rw [expand, length_extendSchedule, hrounds]
  refine ⟨hlen, fun j hj => ?_, fun j hlo hhi => ?_⟩
  · exact getD_of_prefix (prefix_extendSchedule v _ ls) (by omega) 0
  · rw [← nextScheduleWord_take v hlo (by omega)]
    exact getD_extendSchedule v (by omega) (by omega)

/-- On the engine's turn the step is COMPLETE (R124). -/
theorem eq_complete_of_step {s t : State} (he : s.engineTurn = true) (hs : step s = .next t) :
    t = s.complete := by
  rw [step, if_pos he] at hs
  exact (Host.Outcome.next.inj hs).symm

/-- The working copy is taken at width `w` (R95, R96). -/
theorem workingOfRegs_congr {w : Nat} {r r' : Vector Word64 8}
    (h : ∀ j : Fin 8, atWidth w r'[j] = atWidth w r[j]) : workingOfRegs w r' = workingOfRegs w r := by
  simp only [workingOfRegs, Working.mk.injEq]
  exact ⟨h 0, h 1, h 2, h 3, h 4, h 5, h 6, h 7⟩

/-- The words of a register file at width `w` (R85). -/
theorem map_atWidth_congr {w n : Nat} {r r' : Vector Word64 n}
    (h : ∀ k : Fin n, atWidth w r'[k] = atWidth w r[k]) :
    r'.toList.map (atWidth w) = r.toList.map (atWidth w) := by
  apply List.ext_getElem (by simp)
  intro i hi _
  simpa using h ⟨i, by simpa using hi⟩

/-- What COMPLETE writes to H depends on H and L at the width of the variant only (R85, R95). -/
theorem complete_h_congr {s s' : State} (hv : s'.variant = s.variant)
    (hh : ∀ j : Fin 8, atWidth s.variant.wordBits s'.h[j] = atWidth s.variant.wordBits s.h[j])
    (hl : ∀ k : Fin 16, atWidth s.variant.wordBits s'.l[k] = atWidth s.variant.wordBits s.l[k]) :
    s'.complete.h = s.complete.h := by
  rw [State.complete_h, State.complete_h, State.chainingValue, State.chainingValue, State.latchedWords,
    State.latchedWords, hv, workingOfRegs_congr hh, map_atWidth_congr hl]

/-- Settles O33: both steps are COMPLETE, and the width of SHA-256 is the lower half (R90). -/
theorem sha256IgnoresUpperHalves : Obligations.Sha256IgnoresUpperHalves := by
  intro s s' t t' hv hv' he he' ht ht' hh hl
  rw [eq_complete_of_step he ht, eq_complete_of_step he' ht']
  refine complete_h_congr (hv'.trans hv.symm) ?_ ?_ <;> rw [hv]
  · exact hh
  · exact hl

end Sys2Proof.Machine
end

section
/-! SUPPORT. The logic functions of a round (42_compressor.md R98, R101), bit by bit. -/

namespace Sys2Proof.Machine

theorem ch_getLsbD {w : Nat} (x y z : BitVec w) {i : Nat} (hi : i < w) :
    (ch x y z).getLsbD i = if x.getLsbD i then y.getLsbD i else z.getLsbD i := by
  simp only [ch, BitVec.getLsbD_xor, BitVec.getLsbD_and, BitVec.getLsbD_not, hi]
  cases x.getLsbD i <;> simp

theorem maj_getLsbD {w : Nat} (x y z : BitVec w) (i : Nat) :
    (maj x y z).getLsbD i =
      decide (2 ≤ (x.getLsbD i).toNat + (y.getLsbD i).toNat + (z.getLsbD i).toNat) := by
  simp only [maj, BitVec.getLsbD_xor, BitVec.getLsbD_and]
  generalize x.getLsbD i = a, y.getLsbD i = b, z.getLsbD i = c
  revert a b c
  decide

/-- Settles O30, by the bits of the two functions. -/
theorem chChoosesAndMajIsMajority : Obligations.ChChoosesAndMajIsMajority :=
  fun _ x y z i hi => ⟨ch_getLsbD x y z hi, maj_getLsbD x y z i⟩

end Sys2Proof.Machine
end

section
/-! SUPPORT. The constant ROM (42_compressor.md R110-R114; 93_implementation_defined.md G1, G2): the tables as roots of primes. -/

namespace Sys2Proof.Machine

/-- Settles O34, by evaluating the tables. -/
theorem romTablesAgree : Obligations.RomTablesAgree := by
  refine ⟨rfl, rfl, rfl, rfl, ?_, ?_⟩
  · decide +kernel
  · decide +kernel

theorem length_roundConstants (v : Variant) : (roundConstants v).length = v.rounds := by
  cases v <;> rfl

/-- The first 80 primes. -/
def firstPrimes : List Nat :=
  [2, 3, 5, 7, 11, 13, 17, 19, 23, 29, 31, 37, 41, 43, 47, 53, 59, 61, 67, 71, 73, 79, 83, 89, 97, 101,
   103, 107, 109, 113, 127, 131, 137, 139, 149, 151, 157, 163, 167, 173, 179, 181, 191, 193, 197, 199,
   211, 223, 227, 229, 233, 239, 241, 251, 257, 263, 269, 271, 277, 281, 283, 293, 307, 311, 313, 317,
   331, 337, 347, 349, 353, 359, 367, 373, 379, 383, 389, 397, 401, 409]

/-- Trial division below 410 leaves the first 80 primes. -/
theorem filter_range_eq_firstPrimes :
    ((List.range 410).filter fun n => 2 ≤ n && (List.range n).all fun d => d < 2 || n % d != 0) =
      firstPrimes := by
  decide +kernel

/-- Each of the first `len` words of `table` is the first `w` bits of the fractional part of the `n`-th
root of its prime: `x` is that root times `2^w`, rounded down, and `q`, below `bound`, its integer part. -/
abbrev TableOfRoots (n bound len : Nat) {w : Nat} (table : List (BitVec w)) : Prop :=
  ∀ i, i < len → ∃ q, q < bound ∧
    let x := q * 2 ^ w + (table.getD i 0).toNat
    x ^ n ≤ firstPrimes.getD i 0 * 2 ^ (w * n) ∧ firstPrimes.getD i 0 * 2 ^ (w * n) < (x + 1) ^ n

/-- A rounded root of a scaled number, scaled back, is the rounded root of the number. -/
theorem div_isFloorRoot {n m d x : Nat} (hd : 0 < d) (hle : x ^ n ≤ m * d ^ n)
    (hlt : m * d ^ n < (x + 1) ^ n) : (x / d) ^ n ≤ m ∧ m < (x / d + 1) ^ n := by
  have hpow : 0 < d ^ n := Nat.pow_pos hd
  constructor
  · refine Nat.le_of_mul_le_mul_right ?_ hpow
    calc (x / d) ^ n * d ^ n = (x / d * d) ^ n := (Nat.mul_pow ..).symm
      _ ≤ x ^ n := Nat.pow_le_pow_left (Nat.div_mul_le_self x d) n
      _ ≤ m * d ^ n := hle
  · refine Nat.lt_of_mul_lt_mul_right (a := d ^ n) ?_
    calc m * d ^ n < (x + 1) ^ n := hlt
      _ ≤ ((x / d + 1) * d) ^ n := Nat.pow_le_pow_left (Nat.mul_comm d _ ▸ Nat.lt_mul_div_succ x hd) n
      _ = (x / d + 1) ^ n * d ^ n := Nat.mul_pow ..

/-- The upper halves of a table of roots are the table at half the width. -/
theorem TableOfRoots.upperHalves {n bound len : Nat} {t64 : List (BitVec 64)} {t32 : List (BitVec 32)}
    (h : TableOfRoots n bound len t64)
    (hhalf : ∀ i, i < len → t64.getD i 0 >>> 32 = (t32.getD i 0).setWidth 64) :
    TableOfRoots n bound len t32 := by
  intro i hi
  obtain ⟨q, hq, hle, hlt⟩ := h i hi
  have hword : (t64.getD i 0).toNat / 2 ^ 32 = (t32.getD i 0).toNat := by
    rw [← BitVec.toNat_setWidth_of_le (by decide : 32 ≤ 64), ← hhalf i hi, BitVec.toNat_ushiftRight,
      Nat.shiftRight_eq_div_pow]
  have hx : (q * 2 ^ 64 + (t64.getD i 0).toNat) / 2 ^ 32 = q * 2 ^ 32 + (t32.getD i 0).toNat := by omega
  have hscale : 2 ^ (64 * n) = 2 ^ (32 * n) * (2 ^ 32) ^ n := by
    rw [← Nat.pow_mul, ← Nat.pow_add]
    congr 1
    omega
  rw [hscale, ← Nat.mul_assoc] at hle hlt
  exact ⟨q, hq, hx ▸ div_isFloorRoot (by decide) hle hlt⟩

theorem k512_tableOfRoots : TableOfRoots 3 8 80 k512 := by decide +kernel

theorem iv512_tableOfRoots : TableOfRoots 2 5 8 iv512 := by decide +kernel

/-- Settles O55: the words of SHA-512 are checked against their primes, and those of SHA-256 are their
upper halves (R114). -/
theorem romConstantsAreRootsOfPrimes : Obligations.RomConstantsAreRootsOfPrimes := by
  obtain ⟨_, _, _, _, hk, hiv⟩ := romTablesAgree
  unfold Obligations.RomConstantsAreRootsOfPrimes
  rw [filter_range_eq_firstPrimes]
  exact ⟨rfl, k512_tableOfRoots,
    TableOfRoots.upperHalves (fun i hi => k512_tableOfRoots i (by omega)) hk,
    iv512_tableOfRoots, iv512_tableOfRoots.upperHalves hiv⟩

end Sys2Proof.Machine
end

section
/-! SUPPORT. The round loop and the writers of H (42_compressor.md R104-R107): the working variables round by round, and who can change H in a step. -/

namespace Sys2Proof.Machine

/-- The working variables before round `i` (R104). -/
def workingBeforeRound (v : Variant) (hin : Working v.wordBits) (ws : List (BitVec v.wordBits)) (i : Nat) :
    Working v.wordBits :=
  (((roundConstants v).zip ws).take i).foldl (roundStep v) hin

/-- One more round uses the next constant and the next schedule word (R104). -/
theorem workingBeforeRound_succ (v : Variant) (hin : Working v.wordBits) {ws : List (BitVec v.wordBits)}
    {i : Nat} (hk : i < (roundConstants v).length) (hw : i < ws.length) :
    workingBeforeRound v hin ws (i + 1) = roundStep v (workingBeforeRound v hin ws i)
      ((roundConstants v).getD i 0, ws.getD i 0) := by
  have hz : i < ((roundConstants v).zip ws).length := by rw [List.length_zip]; omega
  rw [workingBeforeRound, ← List.take_concat_get' _ i hz, List.foldl_concat]
  simp [workingBeforeRound, hk, hw]

/-- There is a constant for every schedule word, so all ROUNDS rounds run. -/
theorem runRounds_eq_workingBeforeRound (v : Variant) (hin : Working v.wordBits)
    {ws : List (BitVec v.wordBits)} (hw : ws.length = v.rounds) :
    runRounds v hin ws = workingBeforeRound v hin ws v.rounds := by
  rw [runRounds, workingBeforeRound, List.take_of_length_le]
  rw [List.length_zip, length_roundConstants, hw, Nat.min_self]

/-- Settles O32: the rounds are a fold over the pairs of constant and schedule word. -/
theorem compressIsRoundsAndAddBack : Obligations.CompressIsRoundsAndAddBack := by
  intro v hin ls hls
  obtain ⟨hlen, _⟩ := scheduleRecurrence v ls hls
  refine ⟨workingBeforeRound v hin (expand v ls), rfl, fun i hi => ?_, ?_⟩
  · exact workingBeforeRound_succ v hin (by rwa [length_roundConstants]) (by rwa [hlen])
  · rw [compress, runRounds_eq_workingBeforeRound v hin hlen]
    rfl

/-- Settles O39, by the kinds of step; of the accepted commands only INIT writes H. -/
theorem onlyInitCompleteAndResetWriteH : Obligations.OnlyInitCompleteAndResetWriteH := by
  intro s t hs hne
  rcases step_writers hs with ⟨he, _, _, rfl⟩ | ⟨_, hr, _, cut, rest, rfl⟩ | ⟨_, _, _, hm⟩ |
    ⟨_, _, i, u, ha, _, hu, rfl⟩
  · exact .inr (.inl ⟨he, (engineTurn_excludes he).1, rfl⟩)
  · exact .inr (.inr ⟨hr, rfl⟩)
  · exact absurd hm.h hne
  · cases i with
    | init v => exact .inl ⟨by simp [State.initNext, ha], rfl⟩
    | nop => exact absurd hu.h hne
    | compress => exact absurd hu.h hne
    | final => exact absurd hu.h hne

end Sys2Proof.Machine
end

section
/-! SUPPORT. The chain of accepted blocks (43_commands.md R122, R123): what begins it, what adds a block to it, and what keeps it. -/

namespace Sys2Proof.Machine

/-- One more block is one more compression (R122). -/
theorem chain_concat (v : Variant) (hin : Working v.wordBits) (bs : List (List (BitVec v.wordBits)))
    (b : List (BitVec v.wordBits)) : chain v hin (bs ++ [b]) = compress v (chain v hin bs) b :=
  List.foldl_concat ..

/-- L holds the message words of the block (R80, R119). -/
theorem toList_latchedBlock (s : State) :
    s.latchedBlock.toList = (s.messageWords s.variant).map zext64 := by
  apply List.ext_getElem
  · simp [State.messageWords]
  · intro i h1 h2
    simp [State.latchedBlock, State.messageWords]

/-- The message words depend on BLK only (R80). -/
theorem messageWords_congr {s u : State} (h : u.blk = s.blk) (v : Variant) :
    u.messageWords v = s.messageWords v := by
  unfold State.messageWords State.messageWord State.blkByte
  rw [h]

/-- Words survive the registers that hold them. -/
theorem map_atWidth_map_zext64 (v : Variant) (ws : List (BitVec v.wordBits)) :
    (ws.map zext64).map (atWidth v.wordBits) = ws := by
  simp [Function.comp_def]

/-- The digest view in DONE, by the chaining value that H holds (R121). -/
theorem digestView_of_done {s : State} {v : Variant} {x : Working v.wordBits} (hd : s.phase = .done)
    (hv : s.variant = v) (hh : s.h = regsOfWorking x) :
    s.digestView = digestBytesOf v x ++ List.replicate (64 - v.digestBytes) 0#8 := by
  subst hv
  rw [State.digestView, if_pos hd, State.chainingValue, hh, workingOfRegs_regsOfWorking]

theorem chained_startMessage {s : State} (hb : s.busy = false) (v : Variant) :
    Chained v [] (s.startMessage v) where
  variant := rfl
  busy_is_ready := fun _ => rfl
  between := fun _ => ⟨rfl, rfl⟩
  inFlight := fun h => absurd (hb.symm.trans h) Bool.false_ne_true

section
variable {v : Variant} {bs : List (List (BitVec v.wordBits))} {s t : State}

theorem Chained.of_sameMessage (hc : Chained v bs s) (hm : SameMessage s t) : Chained v bs t where
  variant := hm.variant.trans hc.variant
  busy_is_ready := by rw [hm.busy, hm.phase]; exact hc.busy_is_ready
  between := by rw [hm.busy, hm.h, hm.blkcnt]; exact hc.between
  inFlight := by rw [hm.busy, hm.h, hm.blkcnt, hm.l]; exact hc.inFlight

/-- An accepted COMPRESS puts the block in BLK into L, behind the blocks that H chains (R119). -/
theorem Chained.acceptBlock (hc : Chained v bs s) (hb : s.busy = false) (hp : s.phase = .ready) :
    Chained v (bs ++ [s.messageWords v]) s.acceptBlock where
  variant := hc.variant
  busy_is_ready := fun _ => hp
  between := fun h => nomatch h
  inFlight := fun _ => by
    obtain ⟨hh, hn⟩ := hc.between hb
    refine ⟨bs, s.messageWords v, rfl, hh, hn, ?_⟩
    rw [← hc.variant]
    exact toList_latchedBlock s

/-- COMPLETE moves the block from L into the chain and counts it (R124). -/
theorem Chained.complete (hc : Chained v bs s) (hb : s.busy = true) : Chained v bs s.complete where
  variant := hc.variant
  busy_is_ready := fun h => nomatch h
  inFlight := fun h => nomatch h
  between := fun _ => by
    obtain ⟨done, last, rfl, hh, hn, hl⟩ := hc.inFlight hb
    obtain rfl := hc.variant
    constructor
    · rw [State.complete_h, State.chainingValue, hh, workingOfRegs_regsOfWorking, State.latchedWords,
        hl, map_atWidth_map_zext64, chain_concat]
    · rw [State.complete_blkcnt, hn, List.length_append, BitVec.ofNat_add, List.length_singleton]

/-- An accepted FINAL ends the message with no compression in flight (R120). -/
theorem Chained.finishMessage (hc : Chained v bs s) (hb : s.busy = false) : Chained v bs s.finishMessage where
  variant := hc.variant
  busy_is_ready := fun h => absurd (hb.symm.trans h) Bool.false_ne_true
  between := hc.between
  inFlight := hc.inFlight

/-- An accepted command other than INIT adds the block in BLK if it is COMPRESS, and none otherwise. -/
theorem Chained.commandEffect (hc : Chained v bs s) {i : Instr} (ha : accepts s i = true)
    (hi : ∀ v', i ≠ .init v') :
    Chained v (if i = .compress then bs ++ [s.messageWords v] else bs) (commandEffect s i) := by
  rcases (accepts_iff i s).1 ha with rfl | ⟨⟨v', rfl⟩, _⟩ | ⟨rfl, hb, hp⟩ | ⟨rfl, hb, _, _⟩
  · exact hc
  · exact absurd rfl (hi v')
  · exact hc.acceptBlock hb hp
  · exact hc.finishMessage hb

/-- Every step but a reset or another accepted INIT keeps the chain, with one more block where a COMPRESS
is accepted (R122, R123). -/
theorem Chained.step (hc : Chained v bs s) (hs : step s = .next t) (hr : s.resetNext = false)
    (hi : s.initNext = false) :
    Chained v (if s.acceptedNext = some .compress then bs ++ [s.messageWords v] else bs) t := by
  rcases step_writers hs with ⟨he, _, ha, rfl⟩ | ⟨_, hr', _⟩ | ⟨_, _, ha, hm⟩ | ⟨_, _, i, u, ha, hacc, hu, rfl⟩
  · simpa [ha] using hc.complete (engineTurn_excludes he).1
  · exact absurd (hr.symm.trans hr') Bool.false_ne_true
  · simpa [ha] using hc.of_sameMessage hm
  · have hne : ∀ v', i ≠ .init v' := by
      rintro v' rfl
      simp [State.initNext, ha] at hi
    have huc := (hc.of_sameMessage hu.sameMessage).commandEffect (by rwa [hu.accepts_eq]) hne
    rw [messageWords_congr hu.blk] at huc
    simpa [ha] using huc

/-- DONE is no phase of a compression, so H chains all the blocks and the digest view shows them (R121). -/
theorem Chained.digestView (hc : Chained v bs s) (hd : s.phase = .done) :
    s.digestView = digestBytesOf v (chain v (ivWorking v) bs)
      ++ List.replicate (64 - v.digestBytes) 0#8 := by
  have hb : s.busy = false := by
    rw [Bool.eq_false_iff]
    intro hb
    simp [hc.busy_is_ready hb] at hd
  exact digestView_of_done hd hc.variant (hc.between hb).1

end

theorem exec_init_of_not_busy {s : State} (hb : s.busy = false) (v : Variant) :
    exec (.init v) s = .next (s.startMessage v) := by
  simp [exec, execInit, hb]

/-- The state after an accepted INIT chains no block (R118). -/
theorem chained_of_exec_init {v : Variant} {s t : State} (hb : s.busy = false)
    (ht : exec (.init v) s = .next t) : Chained v [] t := by
  rw [exec_init_of_not_busy hb] at ht
  cases ht
  exact chained_startMessage hb v

/-- Settles O57: an INIT begins the chain, every step keeps it, and DONE shows its digest. -/
theorem everyStepKeepsTheChain : Obligations.EveryStepKeepsTheChain := fun _ =>
  ⟨fun _ _ hb ht => chained_of_exec_init hb ht, fun _ _ _ hc hs hr hi => hc.step hs hr hi,
    fun _ _ hc hd => hc.digestView hd⟩

theorem resetNext_iff (s : State) :
    s.resetNext = true ↔ ∃ cut rest, s.inputs = .reset cut :: rest := by
  constructor
  · intro h
    unfold State.resetNext at h
    split at h
    · rename_i cut rest hi
      exact ⟨cut, rest, hi⟩
    · cases h
  · rintro ⟨cut, rest, hi⟩
    exact (resetNext_of_inputs hi).1

/-- Where a command is accepted, no reset is next. -/
theorem resetNext_of_accepted {s : State} {i : Instr} (h : s.acceptedNext = some i) :
    s.resetNext = false := by
  rw [Bool.eq_false_iff, Ne, resetNext_iff]
  rintro ⟨cut, rest, hi⟩
  rw [(acceptedNext_of_none (resetNext_of_inputs hi).2).1] at h
  cases h

/-- A run within a message keeps the chain of the blocks accepted so far (R122). -/
theorem MessageRun.chained {v : Variant} {start t : State} {bs : List (List (BitVec v.wordBits))}
    (h0 : Chained v [] start) (hr : MessageRun v start bs t) : Chained v bs t := by
  induction hr with
  | begin => exact h0
  | feed _ hs ha ih =>
    have hc := ih.step hs (resetNext_of_accepted ha) (by simp [State.initNext, ha])
    rwa [if_pos ha] at hc
  | other _ hs hreset hinit ha ih =>
    have hc := ih.step hs hreset hinit
    rwa [if_neg ha] at hc

/-- Settles O37, by the chain as an invariant of the run. -/
theorem messageBlocksAreChainedInOrder : Obligations.MessageBlocksAreChainedInOrder := by
  intro v s0 s hb0 hinit bs t hrun hb
  have hc := hrun.chained (chained_of_exec_init hb0 hinit)
  obtain ⟨hh, hn⟩ := hc.between hb
  exact ⟨hc.variant, hh, hn, hc.digestView⟩

end Sys2Proof.Machine
end

section
/-! SUPPORT. The commands (43_commands.md R115-R126): the effect of each accepted command, its rejections, the digest view, and the step that takes a CMD write. -/

namespace Sys2Proof.Machine

theorem exec_of_accepts {s : State} {i : Instr} (h : accepts s i = true) :
    exec i s = .next (commandEffect s i) := by
  rcases exec_accepted_or_rejected i s with ⟨_, he⟩ | ⟨hn, _⟩
  · exact he
  · exact absurd (hn.symm.trans h) Bool.false_ne_true

/-- A row of R126 that accepts: the command has its effect. -/
theorem accepted_row {s : State} {i : Instr} (h : accepts s i = true) :
    accepts s i = true ∧ exec i s = .next (commandEffect s i) := ⟨h, exec_of_accepts h⟩

theorem accepts_compress {s : State} (hb : s.busy = false) (hp : s.phase = .ready) :
    accepts s .compress = true := by
  simp [accepts, hb, hp]

theorem accepts_final {s : State} (hb : s.busy = false) (hp : s.phase = .ready) (hn : s.blkcnt ≠ 0#64) :
    accepts s .final = true := by
  simp [accepts, hb, hp, hn]

theorem accepts_init {s : State} (hb : s.busy = false) (v : Variant) : accepts s (.init v) = true := by
  simp [accepts, hb]

/-- While BUSY = 1 every command but NOP is rejected with BUSY (check 4 of R153). -/
theorem busy_row {s : State} {i : Instr} (hb : s.busy = true) (hi : i ≠ .nop) :
    accepts s i = false ∧ exec i s = .next (s.reject .busy) := by
  refine ⟨?_, exec_of_busy hb hi⟩
  rw [Bool.eq_false_iff, Ne, accepts_iff]
  simp [hb, hi]

/-- Outside READY a COMPRESS or FINAL is rejected with BAD_PHASE (check 6 of R153). -/
theorem bad_phase_row {s : State} {i : Instr} (hb : s.busy = false) (hp : s.phase ≠ .ready)
    (hi : i = .compress ∨ i = .final) :
    accepts s i = false ∧ exec i s = .next (s.reject .badPhase) := by
  rcases hi with rfl | rfl
  · simp [accepts, exec, execCompress, hb, hp]
  · simp [accepts, exec, execFinal, hb, hp]

/-- A FINAL before the first block is rejected with NO_BLOCK (check 8 of R153). -/
theorem no_block_row {s : State} (hb : s.busy = false) (hp : s.phase = .ready) (hn : s.blkcnt = 0#64) :
    accepts s .final = false ∧ exec .final s = .next (s.reject .noBlock) := by
  simp [accepts, exec, execFinal, hb, hp, hn]

/-- With OP = 0 any other bit is a reserved one (R117). -/
theorem decode_of_op_zero {c : Word32} (hop : c.toNat % 16 = 0) (hne : c ≠ 0x00000000#32) :
    decode c = .illegal .reservedBits := by
  by_cases hres : c &&& 0xFFFFFFF0#32 = 0#32
  · have hlt := (no_other_reserved_iff c).1 hres
    have hzero : c.toNat = 0 := by omega
    exact absurd (BitVec.eq_of_toNat_eq hzero) hne
  · simp [decode_eq_pseudocode, hop, hres]

/-- Settles O4, by the two ways to spell OP = 0. -/
theorem nopChangesNothing : Obligations.NopChangesNothing := by
  refine fun s => ⟨rfl, fun c hop => ⟨?_, fun hne => ?_⟩⟩
  · rintro rfl
    rfl
  · rw [commandWrite, decode_of_op_zero hop hne]
    rfl

/-- The registers hold the words of the IV in order, zero extended (R118). -/
theorem regsOfWorking_ivWorking_getElem (v : Variant) (j : Fin 8) :
    (regsOfWorking (ivWorking v))[j] = ((initialVector v).getD j.val 0).setWidth 64 := by
  fin_cases j <;> rfl

/-- Settles O5: an accepted INIT is the start of a message, and INIT is accepted again after it. -/
theorem initStartsAMessage : Obligations.InitStartsAMessage := by
  refine fun v s => ⟨fun hb => ⟨s.startMessage v, exec_init_of_not_busy hb v, rfl,
      regsOfWorking_ivWorking_getElem v, rfl, rfl, rfl, hb, rfl, fun _ => rfl,
      ⟨rfl, rfl, rfl, rfl, rfl⟩, rfl, ?_⟩,
    fun hb => exec_of_busy hb nofun, rfl, rfl⟩
  exact exec_init_of_not_busy (s := s.startMessage v) hb v

/-- The sixteen message words lie inside BLK (R80). -/
theorem messageWord_inBlk (v : Variant) (k : Fin 16) :
    v.wordBytes * k.val + v.wordBytes ≤ Config.blkBytes := by
  cases v <;> simp only [Variant.wordBytes, Config.blkBytes] <;> omega

/-- A write beside CMD leaves what was latched (R80). -/
theorem memWrite_l_of_ne_cmd {s u : State} {off : Offset} {w : Word32} (hne : off ≠ Config.cmdOffset)
    (hu : memWrite s off w = .next u) : u.l = s.l := by
  rcases memWrite_cases s off w with ⟨ho, _⟩ | ⟨k, _, hm⟩ | ⟨_, hm⟩
  · exact absurd ho hne
  · rw [hm] at hu
    cases hu
    rfl
  · rw [hm] at hu
    cases hu

/-- Settles O6: an accepted COMPRESS latches the message words, each the `pack` of its bytes of BLK. -/
theorem compressLatchesTheBlock : Obligations.CompressLatchesTheBlock := by
  refine fun s => ⟨fun hb hp => ⟨s.acceptBlock, exec_of_accepts (accepts_compress hb hp), fun k => ?_,
      rfl, rfl, rfl, rfl, rfl, rfl, fun _ => rfl, rfl, rfl, rfl, fun _ _ _ => memWrite_l_of_ne_cmd⟩,
    fun hb => exec_of_busy hb nofun, fun hb hp => (bad_phase_row hb hp (.inl rfl)).2, rfl⟩
  refine ⟨_, pack_blkBytes s s.variant (messageWord_inBlk s.variant k), ?_⟩
  simp [State.latchedBlock, zext64]

/-- Settles O7: an accepted FINAL moves PHASE to DONE, where the digest view shows H. -/
theorem finalEndsTheMessage : Obligations.FinalEndsTheMessage := fun s =>
  ⟨fun hb hp hn => ⟨s.finishMessage, exec_of_accepts (accepts_final hb hp hn), rfl, rfl, rfl, rfl, rfl, rfl,
      rfl, fun _ => rfl, ⟨rfl, rfl, rfl, rfl, rfl⟩, rfl⟩,
    fun hb => exec_of_busy hb nofun, fun hb hp => (bad_phase_row hb hp (.inr rfl)).2,
    fun hb hp hn => (no_block_row hb hp hn).2, rfl⟩

/-- Settles O9, row by row. -/
theorem acceptanceTable : Obligations.AcceptanceTable := by
  refine fun s v => ⟨rfl, rfl, fun hb => accepted_row (accepts_init hb v), fun hp hb => ?_,
    fun hp hb => accepted_row (accepts_compress hb hp), fun hp hb hn => no_block_row hb hp hn,
    fun hp hb hn => accepted_row (accepts_final hb hp hn), fun hb _ hi => busy_row hb hi⟩
  have hne : s.phase ≠ .ready := by rcases hp with hp | hp <;> simp [hp]
  obtain ⟨hcompress, hxcompress⟩ := bad_phase_row (i := .compress) hb hne (.inl rfl)
  obtain ⟨hfinal, hxfinal⟩ := bad_phase_row (i := .final) hb hne (.inr rfl)
  exact ⟨hcompress, hxcompress, hfinal, hxfinal⟩

/-- Settles O10: the engine's turn is the COMPLETE step, which writes H, BLKCNT and BUSY. -/
theorem completePerformsTheCompression : Obligations.CompletePerformsTheCompression := by
  refine fun s he => ⟨(engineTurn_excludes he).1, s.complete, if_pos he, rfl, ?_, rfl, rfl, rfl, rfl, rfl,
    fun _ => rfl, ⟨rfl, rfl, rfl, rfl, rfl⟩⟩
  exact BitVec.toNat_add s.blkcnt 1#64

/-- The digest and the zeros after it fill the digest view (R121). -/
theorem length_digestView (s : State) : s.digestView.length = 64 := by
  unfold State.digestView
  split
  · rw [List.length_append, length_digestBytesOf, List.length_replicate]
    cases s.variant <;> rfl
  · exact List.length_replicate

/-- Settles O18: in DONE the words of H are unpacked in order. -/
theorem digestViewIsHiddenUntilDone : Obligations.DigestViewIsHiddenUntilDone := by
  refine fun s => ⟨fun hd => ?_, fun hd => if_neg hd, length_digestView s⟩
  have hwords : s.h.toList = (List.range 8).map fun j => s.h.toList.getD j 0 := by
    simpa [List.take_of_length_le] using
      take_drop_eq_map_getD (l := s.h.toList) (off := 0) (n := 8) (by simp) 0
  rw [State.digestView, if_pos hd, State.chainingValue, digestBytesOf_workingOfRegs, hwords,
    List.flatMap_map]
  rfl

end Sys2Proof.Machine
end

section
/-! SUPPORT. Turns of the environment that answer a next state (20_memory.md R41, 43_commands.md R115, R125): the step that takes a CMD write, what an admitted input leaves waiting, and the turns of a compression in flight. -/

namespace Sys2Proof.Machine

theorem exec_inputs {s t : State} {i : Instr} (h : exec i s = .next t) : t.inputs = s.inputs := by
  rcases exec_accepted_or_rejected i s with ⟨_, he⟩ | ⟨_, _, _, _, he⟩ <;> (rw [he] at h; cases h)
  · cases i <;> rfl
  · rfl

/-- A CMD write always answers, and takes nothing of what waits (R115). -/
theorem commandWrite_next (s : State) (c : Word32) :
    ∃ t, commandWrite s c = .next t ∧ t.inputs = s.inputs := by
  rcases commandWrite_cases s c with ⟨i, _, hc⟩ | ⟨e, _, hc⟩
  · obtain ⟨t, ht⟩ := exec_next i s
    exact ⟨t, hc.trans ht, exec_inputs ht⟩
  · exact ⟨_, hc, rfl⟩

theorem transact_cmdWrite (s : State) (rest : List Input) (c : Word32) :
    transact (s.takeTurn rest) (.write Config.cmdOffset c) = commandWrite (s.writeTurn rest) c := by
  simp only [transact, memWrite, locate_cmdOffset]
  rfl

/-- A step that takes a CMD write is that write in the state where the turn has begun (R115). -/
theorem step_of_cmdWrite {s : State} {c : Word32} {rest : List Input} (he : s.engineTurn = false)
    (hw : WriteWaits s Config.cmdOffset c rest) : step s = commandWrite (s.writeTurn rest) c := by
  rw [step_of_environment he]
  rcases hw with hi | hi
  · simp only [environmentTurn, hi, transact_cmdWrite]
  · obtain ⟨t, ht, _⟩ := commandWrite_next (s.writeTurn rest) c
    simp only [environmentTurn, hi, bareAccess, transact_cmdWrite, ht]

/-- Settles O45: the step is the CMD write, by what its word decodes to. -/
theorem stepRunsTheDecodedCommand : Obligations.StepRunsTheDecodedCommand := by
  intro s c rest he hw
  rw [step_of_cmdWrite he hw, commandWrite]
  refine ⟨fun i hd => ?_, fun e hd => ?_⟩
  · rw [hd]
    rfl
  · rw [hd]
    cases e <;> rfl

theorem memWrite_of_admitted {off : Offset} (h : writeAdmitted off = true) (s : State) (v : Word32) :
    ∃ t, memWrite s off v = .next t ∧ t.inputs = s.inputs := by
  rcases memWrite_cases s off v with ⟨_, hm⟩ | ⟨k, _, hm⟩ | ⟨_, hm⟩
  · obtain ⟨t, ht, hi⟩ := commandWrite_next s v
    exact ⟨t, hm.trans ht, hi⟩
  · exact ⟨_, hm, rfl⟩
  · rw [memWrite_fault_iff, h] at hm
    cases hm

theorem memRead_of_admitted {off : Offset} (h : readAdmitted off = true) (s : State) :
    ∃ d, memRead s off = some d := by
  rw [← Option.ne_none_iff_exists', Ne, memRead_eq_none_iff, h]
  nofun

/-- A transaction outside a program always answers, and takes nothing of what waits (R158). -/
theorem bareAccess_next (s : State) (a : Access) : ∃ t, bareAccess s a = .next t ∧ t.inputs = s.inputs := by
  cases a with
  | read off =>
    cases hd : memRead s off with
    | none => exact ⟨_, bareAccess_read_err hd, rfl⟩
    | some d => exact ⟨s.answer (readAck d), by simp only [bareAccess, transact_read hd], rfl⟩
  | write off v =>
    cases ha : writeAdmitted off with
    | false => exact ⟨_, bareAccess_write_err ((memWrite_fault_iff s off v).2 ha), rfl⟩
    | true =>
      obtain ⟨t, ht, hi⟩ := memWrite_of_admitted ha (s.answer writeAck) v
      exact ⟨t, by simp only [bareAccess, transact, ht], hi⟩

/-- With only admitted inputs waiting, a turn of the environment answers, and what waits after it waited
before. -/
theorem environmentTurn_of_admitted {s : State} (ha : ∀ i ∈ s.inputs, i.admitted = true) :
    ∃ t, environmentTurn s = .next t ∧ t.inputs ⊆ s.inputs := by
  unfold environmentTurn
  cases hi : s.inputs with
  | nil => exact ⟨_, rfl, List.Subset.refl _⟩
  | cons i rest =>
    have hadm : i.admitted = true := ha i (hi ▸ List.mem_cons_self)
    have hsub : rest ⊆ i :: rest := List.subset_cons_self i rest
    cases i with
    | stmt st =>
      cases st with
      | wr off v =>
        obtain ⟨t, ht, hin⟩ := memWrite_of_admitted hadm (s.writeTurn rest) v
        exact ⟨t, ht, hin ▸ hsub⟩
      | rd off =>
        obtain ⟨d, hd⟩ := memRead_of_admitted hadm (s.takeTurn rest)
        exact ⟨s.afterRead d rest, by simp only [readStmt, hd]; rfl, hsub⟩
      | poll off mask value =>
        obtain ⟨d, hd⟩ := memRead_of_admitted hadm s
        simp only [pollStmt, hd]
        split
        · exact ⟨_, rfl, hsub⟩
        · exact ⟨_, rfl, hi ▸ List.Subset.refl s.inputs⟩
    | access a =>
      obtain ⟨t, ht, hin⟩ := bareAccess_next (s.takeTurn rest) a
      exact ⟨t, ht, hin ▸ hsub⟩
    | reset cut => exact ⟨_, rfl, hsub⟩

/-- Nothing waits that could stop the program or abandon a compression: every statement is admitted, and no
reset is listed. -/
def Undisturbed (s : State) : Prop := ∀ i ∈ s.inputs, i.admitted = true ∧ ∀ cut, i ≠ .reset cut

theorem Undisturbed.resetNext {s : State} (h : Undisturbed s) : s.resetNext = false := by
  rw [Bool.eq_false_iff, Ne, resetNext_iff]
  rintro ⟨cut, rest, hi⟩
  exact (h (.reset cut) (hi ▸ List.mem_cons_self)).2 cut rfl

/-- A turn of the environment while a compression is in flight counts the turn, and leaves BUSY and BLKCNT:
of the commands only NOP is accepted (R24, R125). -/
theorem inFlight_of_step {s t : State} (hs : step s = .next t) (hb : s.busy = true)
    (he : s.engineTurn = false) (hr : s.resetNext = false) :
    t.busy = true ∧ t.blkcnt = s.blkcnt ∧ t.latencyLeft = s.latencyLeft - 1 := by
  rcases step_effects hs with ⟨he', _⟩ | ⟨_, hr', _⟩ | ⟨_, _, _, _, u, hu, hl, hx⟩ |
    ⟨_, _, i, u, _, ha, hu, hl, rfl⟩
  · exact absurd (he.symm.trans he') Bool.false_ne_true
  · exact absurd (hr.symm.trans hr') Bool.false_ne_true
  · have hub := hu.busy.trans hb
    rcases hx with rfl | ⟨_, _, _, _, _, _, rfl⟩ | ⟨_, _, _, _, _, _, rfl⟩ <;>
      exact ⟨hub, hu.blkcnt, hl⟩
  · have hnop : i = .nop := by simpa [accepts_iff, hb] using ha
    subst hnop
    exact ⟨hu.busy.trans hb, hu.blkcnt, hl⟩

/-- One turn of an undisturbed compression that is not yet due. -/
theorem step_inFlight {s : State} {n : Nat} (hb : s.busy = true) (hl : s.latencyLeft = n + 1)
    (hu : Undisturbed s) : ∃ t, step s = .next t ∧ t.busy = true ∧ t.blkcnt = s.blkcnt ∧
      t.latencyLeft = n ∧ Undisturbed t := by
  have he : s.engineTurn = false := by simp [State.engineTurn, hl]
  obtain ⟨t, ht, hsub⟩ := environmentTurn_of_admitted fun i hi => (hu i hi).1
  rw [← step_of_environment he] at ht
  obtain ⟨htb, hn, htl⟩ := inFlight_of_step ht hb he hu.resetNext
  exact ⟨t, ht, htb, hn, by rw [htl, hl, Nat.add_sub_cancel], fun i hi => hu i (hsub hi)⟩

/-- An undisturbed compression that is due completes in the next step (R124). -/
theorem step_due {s : State} (hb : s.busy = true) (hl : s.latencyLeft = 0) (hu : Undisturbed s) :
    step s = .next s.complete := if_pos (by simp [State.engineTurn, hb, hl, hu.resetNext])

/-- Settles O11, by induction on the turn counter. -/
theorem compressionAlwaysCompletes : Obligations.CompressionAlwaysCompletes := by
  intro s hb hu
  change Undisturbed s at hu
  generalize hl : s.latencyLeft = n
  induction n generalizing s with
  | zero =>
    refine ⟨fun j hj => ?_, s.complete, run_succ_of_step (step_due hb hl hu) 0, rfl, rfl⟩
    obtain rfl := Nat.le_zero.1 hj
    exact ⟨s, rfl, hb⟩
  | succ n ih =>
    obtain ⟨t, ht, htb, hn, htl, htu⟩ := step_inFlight hb hl hu
    obtain ⟨hbusy, hdone⟩ := ih t htb htu htl
    refine ⟨fun j hj => ?_, ?_⟩
    · cases j with
      | zero => exact ⟨s, rfl, hb⟩
      | succ j =>
        rw [run_succ_of_step ht]
        exact hbusy j (Nat.le_of_succ_le_succ hj)
    · rw [run_succ_of_step ht, ← hn]
      exact hdone

end Sys2Proof.Machine
end

section
/-! SUPPORT. Padding and the hex rendering (44_host_reference.md R137-R141): the padded length as a number, the parts of the padded buffer, and the digits of a byte. -/

namespace Sys2Proof.Machine

theorem length_lengthField (v : Variant) (bits : Nat) : (lengthField v bits).length = v.lenBytes := by
  simp [lengthField]

/-- Byte `i` of the length field is a base-256 digit of the length (R139). -/
theorem lengthField_getD (v : Variant) (bits : Nat) {i : Nat} (hi : i < v.lenBytes) :
    ((lengthField v bits).getD i 0).toNat = bits / 2 ^ (8 * (v.lenBytes - 1 - i)) % 256 := by
  simp [lengthField, hi, Nat.shiftRight_eq_div_pow]

theorem succ_le_paddedBody (v : Variant) (n : Nat) : n + 1 ≤ paddedBody v n := Nat.le_add_right _ _

/-- The padded body leaves room for exactly the length field in its last block (R137). -/
theorem paddedBody_mod (v : Variant) (n : Nat) :
    paddedBody v n % v.blockBytes = v.blockBytes - v.lenBytes := by
  cases v <;> simp only [paddedBody, Variant.blockBytes, Variant.lenBytes] <;> omega

theorem paddedBody_le {v : Variant} {n k : Nat} (hn : n + 1 ≤ k)
    (hk : k % v.blockBytes = v.blockBytes - v.lenBytes) : paddedBody v n ≤ k := by
  revert hk
  cases v <;> simp only [paddedBody, Variant.blockBytes, Variant.lenBytes] <;> omega

/-- The padded body and the length field fill whole blocks (R140). -/
theorem paddedBody_add_lenBytes (v : Variant) (n : Nat) :
    paddedBody v n + v.lenBytes = v.blockBytes * ((n + v.lenBytes) / v.blockBytes + 1) := by
  cases v <;> simp only [paddedBody, Variant.blockBytes, Variant.lenBytes] <;> omega

/-- What stands before the length field: the message, 0x80 and zeros (R138). -/
def paddedFront (v : Variant) (m : List Byte) : List Byte :=
  m ++ [0x80] ++ List.replicate (paddedBody v m.length - (m.length + 1)) 0

theorem pad_eq (v : Variant) (m : List Byte) :
    pad v m = paddedFront v m ++ lengthField v (8 * m.length) := rfl

theorem length_paddedFront (v : Variant) (m : List Byte) :
    (paddedFront v m).length = paddedBody v m.length := by
  have hle := succ_le_paddedBody v m.length
  simp only [paddedFront, List.length_append, List.length_singleton, List.length_replicate]
  omega

theorem length_pad (v : Variant) (m : List Byte) :
    (pad v m).length = paddedBody v m.length + v.lenBytes := by
  rw [pad_eq, List.length_append, length_paddedFront, length_lengthField]

/-- Settles O49, by arithmetic modulo the block size. -/
theorem paddedSizeIsTheLeast : Obligations.PaddedSizeIsTheLeast := fun v m =>
  ⟨succ_le_paddedBody v m.length, paddedBody_mod v m.length, fun _ => paddedBody_le, length_pad v m⟩

theorem length_pad_blocks (v : Variant) (m : List Byte) :
    (pad v m).length = v.blockBytes * ((m.length + v.lenBytes) / v.blockBytes + 1) :=
  (length_pad v m).trans (paddedBody_add_lenBytes v m.length)

theorem blockBytes_pos (v : Variant) : 0 < v.blockBytes := by cases v <;> decide

theorem length_blocksOf_pad (v : Variant) (m : List Byte) :
    (blocksOf v (pad v m)).length = (m.length + v.lenBytes) / v.blockBytes + 1 := by
  rw [blocksOf, List.length_map, List.length_range, length_pad_blocks,
    Nat.mul_div_cancel_left _ (blockBytes_pos v)]

/-- Every block that is cut out is whole (R140). -/
theorem length_of_mem_blocksOf {v : Variant} {p b : List Byte} (hb : b ∈ blocksOf v p) :
    b.length = v.blockBytes := by
  obtain ⟨k, hk, rfl⟩ := List.mem_map.1 hb
  have hk : (k + 1) * v.blockBytes ≤ p.length :=
    (Nat.mul_le_mul_right _ (List.mem_range.1 hk)).trans (Nat.div_mul_le_self _ _)
  rw [Nat.succ_mul] at hk
  rw [List.length_take, List.length_drop]
  omega

theorem take_pad (v : Variant) (m : List Byte) : (pad v m).take m.length = m := by
  simp [pad]

theorem pad_getD_length (v : Variant) (m : List Byte) : (pad v m).getD m.length 0 = 0x80#8 := by
  simp [pad]

/-- Between 0x80 and the length field there are zeros (R138). -/
theorem pad_getD_zero {v : Variant} {m : List Byte} {i : Nat} (hlo : m.length < i)
    (hhi : i < paddedBody v m.length) : (pad v m).getD i 0 = 0#8 := by
  have hfront : (m ++ [0x80]).length = m.length + 1 := List.length_append
  rw [pad_eq, List.getD_append _ _ _ _ (by rwa [length_paddedFront]), paddedFront,
    List.getD_append_right _ _ _ _ (hfront ▸ hlo), hfront, List.getD_replicate _ (by omega)]
  rfl

/-- The buffer ends with the length field (R139). -/
theorem pad_getD_lengthField (v : Variant) (m : List Byte) (i : Nat) :
    (pad v m).getD ((pad v m).length - v.lenBytes + i) 0 = (lengthField v (8 * m.length)).getD i 0 := by
  rw [length_pad, Nat.add_sub_cancel, pad_eq,
    List.getD_append_right _ _ _ _ (by rw [length_paddedFront]; exact Nat.le_add_right _ _),
    length_paddedFront, Nat.add_sub_cancel_left]

/-- Settles O50, part by part of the buffer. -/
theorem paddingProperties : Obligations.PaddingProperties := by
  refine fun v m => ⟨length_pad_blocks v m, length_blocksOf_pad v m, fun b => length_of_mem_blocksOf,
    take_pad v m, pad_getD_length v m, fun i => pad_getD_zero, fun _ i hi => ?_⟩
  rw [pad_getD_lengthField, lengthField_getD v _ hi]

theorem nib_eq_getD : ∀ n < 16, nib n = "0123456789abcdef".toList.getD n ' ' := by decide

theorem nib_mem_digits : ∀ n < 16, nib n ∈ "0123456789abcdef".toList := by decide

/-- A byte has two nibbles. -/
theorem nibbles_lt (b : Byte) : b.toNat / 16 < 16 ∧ b.toNat % 16 < 16 := by
  have hb := b.isLt
  omega

/-- Settles O51: the digits are pieces of length 2, one a byte. -/
theorem hexIsTwoLowercaseDigitsAByte : Obligations.HexIsTwoLowercaseDigitsAByte := by
  refine fun d => ⟨?_, fun c hc => ?_, fun i hi => ?_⟩
  · simp [hex, Nat.mul_comm]
  · obtain ⟨b, _, hc⟩ := List.mem_flatMap.1 hc
    obtain ⟨hhi, hlo⟩ := nibbles_lt b
    obtain rfl | rfl : c = nib (b.toNat / 16) ∨ c = nib (b.toNat % 16) := by simpa using hc
    · exact nib_mem_digits _ hhi
    · exact nib_mem_digits _ hlo
  · have hpiece : ∀ j < 2, (hex d).getD (2 * i + j) ' ' =
        [nib (d[i].toNat / 16), nib (d[i].toNat % 16)].getD j ' ' := fun j hj =>
      getD_flatMap_of_length_eq (m := 2) (fun _ => rfl) hi hj ' '
    obtain ⟨hhi, hlo⟩ := nibbles_lt d[i]
    rw [List.getD_eq_getElem d 0 hi, ← nib_eq_getD _ hhi, ← nib_eq_getD _ hlo]
    exact ⟨hpiece 0 (by decide), hpiece 1 (by decide)⟩

end Sys2Proof.Machine
end

section
/-! SUPPORT. Programs with side reads between their statements (30_encoding.md R69-R72, 44_host_reference.md R142): what holds after a list of statements has run, whenever COMPLETE comes and whatever is read beside it. -/

namespace Sys2Proof.Machine

theorem run_add {s t : State} {m : Nat} (h : Sys2Proof.core.run m s = .next t) (n : Nat) :
    Sys2Proof.core.run (m + n) s = Sys2Proof.core.run n t := by
  induction m generalizing s with
  | zero => cases h; rw [Nat.zero_add]
  | succ m ih =>
    cases hs : step s with
    | next u =>
      rw [run_succ_of_step hs] at h
      rw [Nat.add_right_comm, run_succ_of_step hs, ih h]
    | fault r => simp only [Host.Core.run, show Sys2Proof.core.step s = .fault r from hs] at h; cases h
    | refused r => simp only [Host.Core.run, show Sys2Proof.core.step s = .refused r from hs] at h; cases h

theorem resultStmts_append (xs ys : List Stmt) :
    resultStmts (xs ++ ys) = resultStmts xs ++ resultStmts ys := List.filter_append ..

theorem digestResults_append {xs : List Stmt} (ys : List Stmt) {ws : List Word32} (ws' : List Word32)
    (h : ws.length = (resultStmts xs).length) :
    digestResults (xs ++ ys) (ws ++ ws') = digestResults xs ws ++ digestResults ys ws' := by
  simp only [digestResults, resultStmts_append, List.zip_append h.symm, List.filter_append, List.map_append]

/-- After finitely many steps from `s` the statements are taken and `rest` waits: each RD has a result, `res`
are those that are no side reads, and `Q` holds. -/
def Takes (stmts : List Stmt) (res : List Word32) (Q : State → Prop) (rest : List Input) (s : State) :
    Prop :=
  ∃ (n : Nat) (t : State) (ws : List Word32), Sys2Proof.core.run n s = .next t ∧ t.inputs = rest ∧
    t.reads = s.reads ++ ws ∧ ws.length = (resultStmts stmts).length ∧ digestResults stmts ws = res ∧ Q t

/-- The statements are taken from every state of `P` in which they wait first. -/
def Executes (P : State → Prop) (stmts : List Stmt) (res : List Word32) (Q : State → Prop) : Prop :=
  ∀ (s : State) (rest : List Input), P s → s.inputs = stmts.map .stmt ++ rest → Takes stmts res Q rest s

/-- Every list of statements that is `listing` with side reads anywhere executes (log entry 20). -/
def Follows (P : State → Prop) (listing : List Stmt) (res : List Word32) (Q : State → Prop) : Prop :=
  ∀ stmts, (stmts.filter fun st => !st.sideRead) = listing → Executes P stmts res Q

/-- What neither a turn that leaves the engine nor a COMPLETE step can end. -/
structure Steady (P : State → Prop) : Prop where
  turn : ∀ {s t : State}, P s → SameEngine s t → t.latencyLeft = s.latencyLeft - 1 → P t
  complete : ∀ {s : State}, P s → s.engineTurn = true → P s.complete

/-- `P` with no compression in flight, as after a WAIT. -/
def Waited (P : State → Prop) (s : State) : Prop := P s ∧ s.busy = false

section
variable {P Q R : State → Prop} {xs ys : List Stmt} {res res' : List Word32} {st : Stmt}

theorem Steady.waited (hP : Steady P) : Steady (Waited P) where
  turn := fun ⟨hs, hb⟩ hu hl => ⟨hP.turn hs hu hl, hu.busy.trans hb⟩
  complete := fun ⟨hs, _⟩ he => ⟨hP.complete hs he, rfl⟩

theorem executes_nil : Executes P [] [] P := fun s _ hs hi => ⟨0, s, [], rfl, hi, by simp, rfl, rfl, hs⟩

theorem Executes.append (hx : Executes P xs res Q) (hy : Executes Q ys res' R) :
    Executes P (xs ++ ys) (res ++ res') R := by
  intro s rest hs hi
  rw [List.map_append, List.append_assoc] at hi
  obtain ⟨m, t, ws, hrun, hti, htr, hlen, hres, ht⟩ := hx s _ hs hi
  obtain ⟨n, u, ws', hrun', hui, hur, hlen', hres', hu⟩ := hy t rest ht hti
  refine ⟨m + n, u, ws ++ ws', (run_add hrun n).trans hrun', hui, ?_, ?_, ?_, hu⟩
  · rw [hur, htr, List.append_assoc]
  · rw [resultStmts_append, List.length_append, List.length_append, hlen, hlen']
  · rw [digestResults_append ys ws' hlen, hres, hres']

/-- A step that gives no result may come before. -/
theorem Takes.of_step {s t : State} {rest : List Input} (hstep : step s = .next t)
    (hr : t.reads = s.reads) (h : Takes xs res Q rest t) : Takes xs res Q rest s := by
  obtain ⟨n, u, ws, hrun, hui, hur, hws⟩ := h
  exact ⟨n + 1, u, ws, (run_succ_of_step hstep n).trans hrun, hui, hr ▸ hur, hws⟩

/-- A statement that one turn of the environment takes; if a COMPLETE step is due, it comes first. -/
theorem Steady.executes_one (hP : Steady P)
    (h : ∀ (s : State) (rest : List Input), P s → s.engineTurn = false → s.inputs = .stmt st :: rest →
      ∃ t ws, step s = .next t ∧ t.inputs = rest ∧ t.reads = s.reads ++ ws ∧
        ws.length = (resultStmts [st]).length ∧ digestResults [st] ws = res ∧ Q t) :
    Executes P [st] res Q := by
  have hturn : ∀ (s : State) (rest : List Input), P s → s.engineTurn = false →
      s.inputs = .stmt st :: rest → Takes [st] res Q rest s := fun s rest hs he hi => by
    obtain ⟨t, ws, hstep, ht⟩ := h s rest hs he hi
    exact ⟨1, t, ws, run_succ_of_step hstep 0, ht⟩
  intro s rest hs hi
  cases he : s.engineTurn with
  | false => exact hturn s rest hs he hi
  | true =>
    have hcomplete := hturn s.complete rest (hP.complete hs he) (engineTurn_of_not_busy rfl) hi
    exact hcomplete.of_step (if_pos he) rfl

theorem Steady.executes_rd (hP : Steady P) {off : Offset}
    (h : ∀ s, P s → ∃ d, memRead s off = some d ∧ digestResults [.rd off] [d] = res) :
    Executes P [.rd off] res P := by
  refine hP.executes_one fun s rest hs he hi => ?_
  obtain ⟨d, hd, hres⟩ := h s hs
  exact ⟨s.afterRead d rest, [d], step_rd he hi hd, rfl, rfl, rfl, hres,
    hP.turn hs (s.afterRead_same d rest) rfl⟩

theorem Steady.executes_sideRead (hP : Steady P) (hst : st.sideRead = true) : Executes P [st] [] P := by
  cases st with
  | wr off v => cases hst
  | poll off mask value => cases hst
  | rd off =>
    refine hP.executes_rd fun s _ => ?_
    obtain ⟨hadm, _⟩ : readAdmitted off = true ∧ off.toNat < Config.blkBase := by
      simpa [Stmt.sideRead] using hst
    obtain ⟨d, hd⟩ := memRead_of_admitted hadm s
    exact ⟨d, hd, by simp [digestResults, resultStmts, hst]⟩

theorem Steady.executes_wr (hP : Steady P) {off : Offset} {c : Word32}
    (h : ∀ s, P s → ∃ t, memWrite s off c = .next t ∧ t.inputs = s.inputs ∧ t.reads = s.reads ∧ Q t) :
    Executes P [.wr off c] [] Q := by
  refine hP.executes_one fun s rest hs he hi => ?_
  obtain ⟨t, hw, hti, htr, ht⟩ := h (s.writeTurn rest) (hP.turn hs (s.writeTurn_same rest) rfl)
  have hstep : step s = memWrite (s.writeTurn rest) off c := by
    simp only [step_of_environment he, environmentTurn, hi, transact]
    rfl
  exact ⟨t, [], hstep.trans hw, hti, by rw [htr, List.append_nil]; rfl, rfl, rfl, ht⟩

/-- A CMD write of a command that every state of `P` accepts (R115, R126). -/
theorem Steady.executes_command (hP : Steady P) {i : Instr}
    (h : ∀ s, P s → accepts s i = true ∧ Q (commandEffect s i)) :
    Executes P [wrCmd (encode i)] [] Q := by
  refine hP.executes_wr fun s hs => ?_
  obtain ⟨ha, hq⟩ := h s hs
  refine ⟨commandEffect s i, ?_, ?_, ?_, hq⟩
  · simp only [memWrite, locate_cmdOffset, commandWrite, decode_encode, exec_of_accepts ha]
  · cases i <;> rfl
  · cases i <;> rfl

/-- One pass of WAIT: it goes on with BUSY = 0 and stays with BUSY = 1 (R72). -/
theorem step_wait {s : State} {rest : List Input} (he : s.engineTurn = false)
    (hi : s.inputs = .stmt waitStmt :: rest) :
    ∃ t, step s = .next t ∧ SameEngine s t ∧ t.latencyLeft = s.latencyLeft - 1 ∧ t.reads = s.reads ∧
      t.inputs = if s.busy then s.inputs else rest := by
  obtain ⟨hgo, hstay, hexp, hcond⟩ :=
    pollRepeatsUntilItsConditionHolds s Config.statusOffset 0x00000004 0x00000000 s.statusWord rest he hi rfl
  cases hb : s.busy with
  | false =>
    exact ⟨_, hgo ((hcond hexp).2 hb), ⟨rfl, rfl, rfl, rfl, rfl, rfl, rfl, rfl, rfl, rfl⟩, rfl, rfl, rfl⟩
  | true =>
    have hne := mt (hcond hexp).1 (by simp [hb])
    exact ⟨_, hstay hne, ⟨rfl, rfl, rfl, rfl, rfl, rfl, rfl, rfl, rfl, rfl⟩, rfl, rfl, rfl⟩

/-- With no compression in flight WAIT makes one read. -/
theorem Steady.executes_wait_of_waited (hP : Steady P) : Executes (Waited P) [waitStmt] [] (Waited P) := by
  refine hP.waited.executes_one fun s rest hs he hi => ?_
  obtain ⟨t, hstep, hu, hl, htr, hti⟩ := step_wait he hi
  rw [hs.2] at hti
  exact ⟨t, [], hstep, hti, by rw [htr, List.append_nil], rfl, rfl, hP.waited.turn hs hu hl⟩

/-- WAIT ends with BUSY = 0, by induction on the turns that the latency leaves (R72, R125). -/
theorem Steady.executes_wait (hP : Steady P) : Executes P [waitStmt] [] (Waited P) := by
  intro s rest hs hi
  cases hb : s.busy with
  | false => exact hP.executes_wait_of_waited s rest ⟨hs, hb⟩ hi
  | true =>
    generalize hl : s.latencyLeft = n
    induction n generalizing s with
    | zero =>
      have he : s.engineTurn = true := by simp [State.engineTurn, State.resetNext, hb, hl, hi]
      have hcomplete := hP.executes_wait_of_waited s.complete rest ⟨hP.complete hs he, rfl⟩ hi
      exact hcomplete.of_step (if_pos he) rfl
    | succ n ih =>
      have he : s.engineTurn = false := by simp [State.engineTurn, hl]
      obtain ⟨t, hstep, hu, htl, htr, hti⟩ := step_wait he hi
      rw [hb, if_pos rfl] at hti
      have hleft : t.latencyLeft = n := by rw [htl, hl, Nat.add_sub_cancel]
      exact (ih t (hP.turn hs hu htl) (hti.trans hi) (hu.busy.trans hb) hleft).of_step hstep htr

theorem Executes.mono {P' Q' : State → Prop} (h : Executes P xs res Q) (hP : ∀ s, P' s → P s)
    (hQ : ∀ s, Q s → Q' s) : Executes P' xs res Q' := fun s rest hs hi => by
  obtain ⟨n, t, ws, hrun, hti, htr, hlen, hres, ht⟩ := h s rest (hP s hs) hi
  exact ⟨n, t, ws, hrun, hti, htr, hlen, hres, hQ t ht⟩

theorem Follows.mono {P' Q' : State → Prop} (h : Follows P xs res Q) (hP : ∀ s, P' s → P s)
    (hQ : ∀ s, Q s → Q' s) : Follows P' xs res Q' := fun stmts hf => (h stmts hf).mono hP hQ

/-- A listing of two parts is followed part by part. -/
theorem Follows.append (hx : Follows P xs res Q) (hy : Follows Q ys res' R) :
    Follows P (xs ++ ys) (res ++ res') R := by
  intro stmts hf
  obtain ⟨l₁, l₂, rfl, h₁, h₂⟩ := List.filter_eq_append_iff.1 hf
  exact (hx l₁ h₁).append (hy l₂ h₂)

/-- Side reads alone end nothing that is steady. -/
theorem Steady.follows_nil (hP : Steady P) : Follows P [] [] P := by
  intro stmts hf
  induction stmts with
  | nil => exact executes_nil
  | cons st stmts ih =>
    simp only [List.filter_eq_nil_iff, List.forall_mem_cons, Bool.not_eq_true, Bool.not_eq_false'] at hf ih
    obtain ⟨hst, hrest⟩ := hf
    exact (hP.executes_sideRead hst).append (ih hrest)

/-- A statement of the listing, with side reads before and after it. -/
theorem Executes.follows (h : Executes P [st] res Q) (hP : Steady P) (hQ : Steady Q) :
    Follows P [st] res Q := by
  intro stmts hf
  obtain ⟨l₁, l₂, rfl, h₁, _, h₂⟩ := List.filter_eq_cons_iff.1 hf
  rw [← List.nil_append res, ← List.append_nil res]
  exact (hP.follows_nil l₁ (List.filter_eq_nil_iff.2 h₁)).append (h.append (hQ.follows_nil l₂ h₂))

/-- A list of reads whose words the state of `P` fixes. -/
theorem Steady.follows_rds (hP : Steady P) {off : Nat → Offset} {word : Nat → Word32} (ks : List Nat)
    (h : ∀ k ∈ ks, (Stmt.rd (off k)).sideRead = false ∧ ∀ s, P s → memRead s (off k) = some (word k)) :
    Follows P (ks.map fun k => .rd (off k)) (ks.map word) P := by
  induction ks with
  | nil => exact hP.follows_nil
  | cons k ks ih =>
    obtain ⟨⟨hside, hread⟩, hks⟩ := List.forall_mem_cons.1 h
    refine Follows.append (xs := [_]) (res := [_]) (Executes.follows ?_ hP hP) (ih hks)
    exact hP.executes_rd fun s hs => ⟨word k, hread s hs, by simp [digestResults, resultStmts, hside]⟩

end

end Sys2Proof.Machine
end

section
/-! SUPPORT. The protocol of 44_host_reference.md R142: what holds of the engine between its statements, and that every host that follows it reads the digest (R143). -/

namespace Sys2Proof.Machine

theorem steady_inv : Steady Inv where
  turn := Inv.of_sameEngine
  complete := Inv.complete

/-- Within a message whose blocks `bs` are accepted, no command was rejected, and of the next block `b` the
first `n` words are in BLK; with `idle`, no compression is in flight. -/
structure Feeding (v : Variant) (bs : List (List (BitVec v.wordBits))) (b : List Byte) (n : Nat) (idle : Bool)
    (s : State) : Prop where
  inv : Inv s
  chained : Chained v bs s
  ready : s.phase = .ready
  err : s.err = .none
  loaded : ∀ k, k < n → k < b.length / 4 → s.blkWord k = bytesWord b k
  waited : idle = true → s.busy = false

/-- The message is over: its blocks are chained, no command was rejected, and the digest is readable. -/
structure Finished (v : Variant) (bs : List (List (BitVec v.wordBits))) (s : State) : Prop where
  chained : Chained v bs s
  done : s.phase = .done
  err : s.err = .none
  busy : s.busy = false

section
variable {v : Variant} {bs : List (List (BitVec v.wordBits))} {b : List Byte} {n : Nat} {idle : Bool}
  {s : State}

theorem blkWord_congr {s u : State} (h : u.blk = s.blk) (k : Nat) : u.blkWord k = s.blkWord k := by
  simp only [State.blkWord, State.blkByte, h]

theorem steady_feeding : Steady (Feeding v bs b n idle) where
  turn := fun h hu hl =>
    { inv := h.inv.of_sameEngine hu hl
      chained := h.chained.of_sameMessage hu.sameMessage
      ready := hu.phase.trans h.ready
      err := hu.err.trans h.err
      loaded := fun k hk hkb => (blkWord_congr hu.blk k).trans (h.loaded k hk hkb)
      waited := fun hw => hu.busy.trans (h.waited hw) }
  complete := fun h he =>
    { inv := h.inv.complete he
      chained := h.chained.complete (engineTurn_excludes he).1
      ready := h.ready
      err := h.err
      loaded := h.loaded
      waited := fun _ => rfl }

theorem steady_finished : Steady (Finished v bs) where
  turn := fun h hu _ => ⟨h.chained.of_sameMessage hu.sameMessage, hu.phase.trans h.done, hu.err.trans h.err,
    hu.busy.trans h.busy⟩
  complete := fun h he => absurd (h.busy.symm.trans (engineTurn_excludes he).1) Bool.false_ne_true

theorem Feeding.of_waited (h : Waited (Feeding v bs b n idle) s) : Feeding v bs b n true s :=
  { h.1 with waited := fun _ => h.2 }

/-- An accepted INIT begins the message, with nothing of its first block loaded (R118). -/
theorem Inv.feeding_startMessage (hi : Inv s) (hb : s.busy = false) (v : Variant) (b : List Byte) :
    Feeding v [] b 0 true (s.startMessage v) where
  inv := hi.startMessage hb v
  chained := chained_startMessage hb v
  ready := rfl
  err := rfl
  loaded := fun _ hk => absurd hk (Nat.not_lt_zero _)
  waited := fun _ => hb

/-- The next word of LDBLK is loaded (R73). -/
theorem Feeding.storeBlkWord (h : Feeding v bs b n idle s) (hn : n < 32) :
    Feeding v bs b (n + 1) idle (s.storeBlkWord n (bytesWord b n)) where
  inv := h.inv.storeBlkWord ⟨n, hn⟩ _
  chained := h.chained.of_sameMessage ⟨rfl, rfl, rfl, rfl, rfl, rfl⟩
  ready := h.ready
  err := h.err
  loaded := fun k hk hkb => by
    obtain ⟨hwf, _⟩ := h.inv.blk_canonical
    by_cases hkn : k = n
    · rw [hkn, blkWord_storeBlkWord_same hwf]
    · rw [blkWord_storeBlkWord_other hwf _ hkn, h.loaded k (by omega) hkb]
  waited := h.waited

/-- Past the end of the block nothing is left to load. -/
theorem Feeding.succ_of_length_le (h : Feeding v bs b n idle s) (hn : b.length / 4 ≤ n) :
    Feeding v bs b (n + 1) idle s :=
  { h with loaded := fun k _ hkb => h.loaded k (by omega) hkb }

/-- With the whole block loaded, BLK holds its message words (R80, R122). -/
theorem pack_eq_messageWord (hb : b.length = v.blockBytes)
    (hw : ∀ k, k < b.length / 4 → s.blkWord k = bytesWord b k) {t : Nat} (ht : t < 16) :
    pack v b (v.wordBytes * t) = some (s.messageWord v t) := by
  cases v with
  | sha256 =>
    have hb : b.length = 64 := hb
    rw [messageWord_sha256, hw t (by omega)]
    exact pack_sha256_eq_bytesWord (by omega)
  | sha512 =>
    have hb : b.length = 128 := hb
    have hslice : (b.drop (8 * t)).take 8 =
        (b.drop (4 * (2 * t))).take 4 ++ (b.drop (4 * (2 * t + 1))).take 4 := by
      rw [show 8 = 4 + 4 from rfl, List.take_add, List.drop_drop]
      congr 3 <;> omega
    have hin : 8 * t + Variant.sha512.wordBytes ≤ b.length := by
      rw [hb]
      change 8 * t + 8 ≤ 128
      omega
    have hlen : ∀ k, k < 32 → 8 * ((b.drop (4 * k)).take 4).length = 32 := fun k hk => by
      rw [List.length_take, List.length_drop]
      omega
    rw [messageWord_sha512, messageWord_sha256, messageWord_sha256, hw _ (by omega), hw _ (by omega),
      show Variant.sha512.wordBytes = 8 from rfl, pack_of_inBounds hin]
    refine congrArg some ((congrArg (packBytes 64) hslice).trans ?_)
    exact packBytes_append (m := 32) (n := 32) (hlen _ (by omega)) (hlen _ (by omega))

theorem messageWords_eq_wordsOf (hb : b.length = v.blockBytes)
    (hw : ∀ k, k < b.length / 4 → s.blkWord k = bytesWord b k) : s.messageWords v = wordsOf v b :=
  List.map_congr_left fun t ht => by rw [pack_eq_messageWord hb hw (List.mem_range.1 ht)]; rfl

/-- An accepted COMPRESS adds the loaded block to the message, and nothing of the next is loaded (R119). -/
theorem Feeding.acceptBlock (h : Feeding v bs b n true s) (hb : b.length = v.blockBytes)
    (hn : b.length / 4 ≤ n) (b' : List Byte) :
    Feeding v (bs ++ [wordsOf v b]) b' 0 false s.acceptBlock where
  inv := h.inv.acceptBlock h.ready
  chained := by
    rw [← messageWords_eq_wordsOf hb fun k hk => h.loaded k (by omega) hk]
    exact h.chained.acceptBlock (h.waited rfl) h.ready
  ready := h.ready
  err := h.err
  loaded := fun _ hk => absurd hk (Nat.not_lt_zero _)
  waited := nofun

/-- An accepted FINAL ends the message (R120). -/
theorem Feeding.finishMessage (h : Feeding v bs b n true s) : Finished v bs s.finishMessage where
  chained := h.chained.finishMessage (h.waited rfl)
  done := rfl
  err := h.err
  busy := h.waited rfl

/-- BLKCNT counts the blocks of a message in the domain without wrapping around (R29, R136). -/
theorem Feeding.blkcnt_ne_zero (h : Feeding v bs b n true s) (hpos : 0 < bs.length) (hlt : bs.length < 2 ^ 64) :
    s.blkcnt ≠ 0#64 := by
  obtain ⟨_, hn⟩ := h.chained.between (h.waited rfl)
  intro h0
  have hnat := congrArg BitVec.toNat (hn.symm.trans h0)
  rw [BitVec.toNat_ofNat, Nat.mod_eq_of_lt hlt] at hnat
  exact absurd hnat hpos.ne'

/-- Writing any part of LDBLK, from where the host stands in it (R73). -/
theorem follows_ldblk (hb : b.length ≤ 128) (i n : Nat) :
    Follows (Feeding v bs b i idle) (((ldblkStmts b).drop i).take n) [] (Feeding v bs b (i + n) idle) := by
  induction n with
  | zero => exact steady_feeding.follows_nil
  | succ n ih =>
    rw [List.take_add_one, List.getElem?_drop]
    refine ih.append (res' := []) ?_
    by_cases hk : i + n < b.length / 4
    · have hst : (ldblkStmts b)[i + n]? =
          some (.wr (BitVec.ofNat 10 (0x100 + 4 * (i + n))) (bytesWord b (i + n))) := by
        simp [ldblkStmts, hk, Config.blkBase]
      rw [hst]
      refine Executes.follows ?_ steady_feeding steady_feeding
      exact steady_feeding.executes_wr fun s hs =>
        ⟨_, memWrite_blkWord s (by omega) _, rfl, rfl, hs.storeBlkWord (by omega)⟩
    · have hst : (ldblkStmts b)[i + n]? = none := by simp [ldblkStmts]; omega
      rw [hst]
      exact steady_feeding.follows_nil.mono (fun _ => id) fun _ hs => hs.succ_of_length_le (by omega)

/-- What is left of LDBLK loads the whole block. -/
theorem follows_ldblk_drop (hb : b.length ≤ 128) (i : Nat) :
    Follows (Feeding v bs b i idle) ((ldblkStmts b).drop i) [] (Feeding v bs b (i + b.length / 4) idle) := by
  have h := follows_ldblk (v := v) (bs := bs) (idle := idle) hb i (b.length / 4)
  rwa [List.take_of_length_le (by simp [ldblkStmts])] at h

theorem follows_init (v : Variant) (b : List Byte) :
    Follows (Waited Inv) [wrCmd (encode (.init v))] [] (Feeding v [] b 0 true) :=
  Executes.follows (steady_inv.waited.executes_command fun _ ⟨hi, hb⟩ =>
    ⟨accepts_init hb v, hi.feeding_startMessage hb v b⟩) steady_inv.waited steady_feeding

theorem follows_compress (hb : b.length = v.blockBytes) (hn : b.length / 4 ≤ n) (b' : List Byte) :
    Follows (Feeding v bs b n true) [wrCmd (encode .compress)] []
      (Feeding v (bs ++ [wordsOf v b]) b' 0 false) :=
  Executes.follows (steady_feeding.executes_command fun _ hs =>
    ⟨accepts_compress (hs.waited rfl) hs.ready, hs.acceptBlock hb hn b'⟩) steady_feeding steady_feeding

theorem follows_wait : Follows (Feeding v bs b n idle) [waitStmt] [] (Feeding v bs b n true) :=
  (steady_feeding.executes_wait.follows steady_feeding steady_feeding.waited).mono (fun _ => id)
    fun _ => Feeding.of_waited

theorem follows_final (hpos : 0 < bs.length) (hlt : bs.length < 2 ^ 64) :
    Follows (Feeding v bs b n true) [wrCmd (encode .final)] [] (Finished v bs) :=
  Executes.follows (steady_feeding.executes_command fun _ hs =>
    ⟨accepts_final (hs.waited rfl) hs.ready (hs.blkcnt_ne_zero hpos hlt), hs.finishMessage⟩)
    steady_feeding steady_finished

theorem blockBytes_le (v : Variant) : v.blockBytes ≤ 128 := by cases v <;> decide

/-- The loop over the blocks chains them all, whatever is loaded ahead (R142). -/
theorem follows_feedBlocks {blocks : List (List Byte)} (hlen : ∀ b ∈ blocks, b.length = v.blockBytes)
    (loaded : Nat) (ahead : List Nat) :
    Follows (Feeding v bs (blocks.headD []) loaded true) (feedBlocks loaded ahead blocks) []
      (Feeding v (bs ++ blocks.map (wordsOf v)) [] 0 true) := by
  induction blocks generalizing bs loaded ahead with
  | nil =>
    rw [List.map_nil, List.append_nil]
    exact steady_feeding.follows_nil.mono (fun _ => id) fun _ hs =>
      { hs with loaded := fun _ hk => absurd hk (Nat.not_lt_zero _) }
  | cons b rest ih =>
    obtain ⟨hb, hrest⟩ := List.forall_mem_cons.1 hlen
    have hnext : (rest.headD []).length ≤ 128 := by
      cases rest with
      | nil => exact Nat.zero_le _
      | cons b' _ => exact (hrest b' List.mem_cons_self).trans_le (blockBytes_le v)
    have hload := follows_ldblk_drop (v := v) (bs := bs) (idle := true) (hb.trans_le (blockBytes_le v)) loaded
    have hcompress := follows_compress (bs := bs) (n := loaded + b.length / 4) hb (Nat.le_add_left _ _)
      (rest.headD [])
    have hahead := follows_ldblk (v := v) (bs := bs ++ [wordsOf v b]) (idle := false) hnext 0 (ahead.headD 0)
    rw [Nat.zero_add, List.drop_zero] at hahead
    have hfeed := ih (bs := bs ++ [wordsOf v b]) hrest (ahead.headD 0) ahead.tail
    rw [feedBlocks_cons, List.map_cons, List.append_cons bs]
    exact (((hload.append hcompress).append hahead).append follows_wait).append hfeed

end

/-- In DONE DIGEST word `k` is the word of the digest bytes at `4k` (R49, R121). -/
theorem Finished.memRead_digest {v : Variant} {bs : List (List (BitVec v.wordBits))} {s : State}
    (h : Finished v bs s) {k : Nat} (hk : k < v.digestBytes / 4) :
    memRead s (BitVec.ofNat 10 (digestBase + 4 * k)) =
      some (bytesWord (digestBytesOf v (chain v (ivWorking v) bs)) k) := by
  obtain ⟨hh, _⟩ := h.chained.between h.busy
  obtain rfl := h.chained.variant
  have hx : s.chainingValue = chain s.variant (ivWorking s.variant) bs := by
    rw [State.chainingValue, hh, workingOfRegs_regsOfWorking]
  have hword := packBytes_unpack .sha256 (s.digestWord k)
  rw [unpack_digestWord_of_done h.done (by omega), hx] at hword
  exact (memRead_digestWord s (hk.trans_le (digestWords_le _))).trans (congrArg some hword.symm)

/-- The bus words of a byte sequence, most significant byte first, are the sequence (R48). -/
theorem flatMap_unpack_bytesWord {d : List Byte} {n : Nat} (hd : d.length = 4 * n) :
    ((List.range n).map (bytesWord d)).flatMap (unpack .sha256) = d := by
  rw [List.flatMap_map, List.flatMap_congr (g := fun k => (d.drop (4 * k)).take 4), flatMap_range_take_drop,
    ← hd, List.take_length]
  intro k hk
  have hk := List.mem_range.1 hk
  have hin : 4 * k + Variant.sha256.wordBytes ≤ d.length := by
    change 4 * k + 4 ≤ _
    omega
  exact unpack_packBytes (length_take_drop hin)

/-- The words of the digest of a message (R74). -/
def digestWordsOf (v : Variant) (m : List Byte) : List Word32 :=
  (List.range (v.digestBytes / 4)).map (bytesWord (digestBytes v m))

theorem unpack_digestWordsOf (v : Variant) (m : List Byte) :
    (digestWordsOf v m).flatMap (unpack .sha256) = digestBytes v m :=
  flatMap_unpack_bytesWord ((length_digestBytesOf v _).trans (by cases v <;> rfl))

/-- A message in the domain has a block, and fewer than BLKCNT can count (R136, R140). -/
theorem length_blocksOf_pad_bounds (v : Variant) {m : List Byte} (hm : messageLengthInDomain m.length = true) :
    0 < (blocksOf v (pad v m)).length ∧ (blocksOf v (pad v m)).length < 2 ^ 64 := by
  have hm : 8 * m.length < 2 ^ 64 := of_decide_eq_true hm
  rw [length_blocksOf_pad]
  cases v <;> simp only [Variant.lenBytes, Variant.blockBytes] <;> omega

/-- Every host that follows the protocol brings its message to DONE and reads its digest (R142, R143). -/
theorem follows_protocolStmts (v : Variant) {m : List Byte} (hm : messageLengthInDomain m.length = true)
    (ahead : List Nat) :
    Follows Inv (protocolStmts v m ahead) (digestWordsOf v m)
      (Finished v ((blocksOf v (pad v m)).map (wordsOf v))) := by
  obtain ⟨hpos, hlt⟩ := length_blocksOf_pad_bounds v hm
  have hwait := steady_inv.executes_wait.follows steady_inv steady_inv.waited
  have hinit := follows_init v ((blocksOf v (pad v m)).headD [])
  have hfeed := follows_feedBlocks (bs := []) (fun _ => length_of_mem_blocksOf (v := v) (p := pad v m)) 0 ahead
  have hfinal := follows_final (v := v) (bs := (blocksOf v (pad v m)).map (wordsOf v)) (b := []) (n := 0)
    (by rwa [List.length_map]) (by rwa [List.length_map])
  have hread := (steady_finished (bs := (blocksOf v (pad v m)).map (wordsOf v))).follows_rds
    (off := fun k => BitVec.ofNat 10 (digestBase + 4 * k)) (word := bytesWord (digestBytes v m))
    (List.range (v.digestBytes / 4)) fun k hk =>
      ⟨sideRead_rddig v _ (List.mem_map_of_mem hk), fun _ hs => hs.memRead_digest (List.mem_range.1 hk)⟩
  exact (((hwait.append hinit).append hfeed).append hfinal).append hread

theorem initAsm_expand (v : Variant) : (initAsm v).expand = some [wrCmd (encode (.init v))] := by
  cases v <;> rfl

theorem ldblk_expand {v : Variant} {b : List Byte} (hb : b.length = v.blockBytes) :
    Asm.expand (.ldblk b) = some (ldblkStmts b) := by
  refine if_pos (decide_eq_true ?_)
  rw [hb]
  cases v <;> decide

/-- The loop of the listing feeds the blocks with nothing loaded ahead (R142). -/
theorem expandProgram_feed {v : Variant} {blocks : List (List Byte)}
    (hlen : ∀ b ∈ blocks, b.length = v.blockBytes) :
    expandProgram (blocks.flatMap fun b => [.ldblk b, .compress, .wait]) = some (feedBlocks 0 [] blocks) := by
  induction blocks with
  | nil => rfl
  | cons b rest ih =>
    obtain ⟨hb, hrest⟩ := List.forall_mem_cons.1 hlen
    rw [List.flatMap_cons, feedBlocks_cons, List.headD_nil, List.take_zero, List.append_nil, List.drop_zero]
    have hblock : expandProgram [.ldblk b, .compress, .wait] =
        some (ldblkStmts b ++ [wrCmd (encode .compress)] ++ [waitStmt]) := by
      rw [List.append_assoc]
      exact expandProgram_cons (ldblk_expand hb) rfl
    exact expandProgram_append hblock (ih hrest)

/-- The listing of R142 expands to the protocol with nothing loaded ahead. -/
theorem hostProtocol_expand {v : Variant} {m : List Byte} (hm : messageLengthInDomain m.length = true) :
    ∃ prog, hostProtocol v m = some prog ∧ expandProgram prog = some (protocolStmts v m []) := by
  refine ⟨_, if_pos hm, ?_⟩
  have hstart : expandProgram [.wait, initAsm v] = some [waitStmt, wrCmd (encode (.init v))] :=
    expandProgram_cons (x := [waitStmt]) rfl (expandProgram_cons (initAsm_expand v) rfl)
  have hend : expandProgram [.final, .rddig v] = some ([wrCmd (encode .final)] ++ rddigStmts v) := by
    rw [← List.append_nil (rddigStmts v)]
    exact expandProgram_cons (x := [wrCmd (encode .final)]) rfl (expandProgram_cons (expand_rddig v) rfl)
  rw [protocolStmts, List.append_assoc _ [wrCmd (encode .final)]]
  exact expandProgram_append (expandProgram_append hstart
    (expandProgram_feed fun _ => length_of_mem_blocksOf)) hend

theorem sideRead_ldblk (b : List Byte) : ∀ st ∈ ldblkStmts b, st.sideRead = false := by
  simp [ldblkStmts]

theorem sideRead_feedBlocks (loaded : Nat) (ahead : List Nat) (blocks : List (List Byte)) :
    ∀ st ∈ feedBlocks loaded ahead blocks, st.sideRead = false := by
  induction blocks generalizing loaded ahead with
  | nil => nofun
  | cons b rest ih =>
    simp only [feedBlocks_cons, List.forall_mem_append, List.forall_mem_singleton]
    exact ⟨⟨⟨⟨fun st h => sideRead_ldblk b st (List.mem_of_mem_drop h), rfl⟩,
      fun st h => sideRead_ldblk _ st (List.mem_of_mem_take h)⟩, rfl⟩, ih _ _⟩

/-- No statement of the protocol is a side read. -/
theorem sideRead_protocolStmts (v : Variant) (m : List Byte) (ahead : List Nat) :
    ∀ st ∈ protocolStmts v m ahead, st.sideRead = false := by
  simp only [protocolStmts, List.forall_mem_append, List.forall_mem_cons]
  exact ⟨⟨⟨⟨rfl, rfl, nofun⟩, sideRead_feedBlocks _ _ _⟩, rfl, nofun⟩, sideRead_rddig v⟩

theorem followsProtocol_listing (v : Variant) {m : List Byte} (hm : messageLengthInDomain m.length = true) :
    FollowsProtocol v m (protocolStmts v m []) :=
  ⟨hm, [], List.filter_eq_self.2 fun st hst => by rw [sideRead_protocolStmts v m [] st hst]; rfl⟩

/-- Without side reads every result is one of RDDIG. -/
theorem digestResults_of_no_sideRead {stmts : List Stmt} (hst : ∀ st ∈ stmts, st.sideRead = false)
    {ws : List Word32} (hlen : ws.length = (resultStmts stmts).length) : digestResults stmts ws = ws := by
  have hside : ∀ x ∈ (resultStmts stmts).zip ws, (!x.1.sideRead) = true := fun x hx => by
    rw [hst x.1 (List.mem_of_mem_filter (List.of_mem_zip hx).1)]
    rfl
  rw [digestResults, List.filter_eq_self.2 hside, List.map_snd_zip hlen.le]

/-- The digest of a message in the domain is the hex of its digest bytes (R143). -/
theorem digest_of_domain (v : Variant) {m : List Byte} (hm : messageLengthInDomain m.length = true) :
    digest v m = some (String.ofList (hex (digestBytes v m))) := if_pos hm

/-- Settles O56: the statements take the engine from statement to statement of the protocol, with COMPLETE
steps and side reads between. -/
theorem everyHostThatFollowsTheProtocolReadsTheDigest :
    Obligations.EveryHostThatFollowsTheProtocolReadsTheDigest := by
  refine ⟨fun v m prog stmts hprog hexp => ?_, fun v m s stmts rest hinv ⟨hm, ahead, hf⟩ hi => ?_⟩
  · have hm : messageLengthInDomain m.length = true := by
      by_contra hm
      rw [hostProtocol, if_neg hm] at hprog
      cases hprog
    obtain ⟨prog', hprog', hexp'⟩ := hostProtocol_expand (v := v) hm
    cases hprog.symm.trans hprog'
    cases hexp.symm.trans hexp'
    exact followsProtocol_listing v hm
  · obtain ⟨n, t, ws, hrun, hti, htr, hlen, hres, ht⟩ :=
      follows_protocolStmts v hm ahead stmts hf s rest hinv hi
    have hbytes := unpack_digestWordsOf v m
    rw [← hres] at hbytes
    refine ⟨n, t, ws, hrun, hti, htr, hlen, ht.done, ht.chained.variant, ht.err, ht.busy, hbytes, ?_⟩
    rw [hbytes]
    exact digest_of_domain v hm

/-- Settles O54: the listing is a host that follows the protocol and makes no side read. -/
theorem hostProtocolReadsTheDigest : Obligations.HostProtocolReadsTheDigest := by
  intro v m s rest hinv hm
  obtain ⟨prog, hprog, hexp⟩ := hostProtocol_expand (v := v) hm
  refine ⟨prog, _, hprog, hexp, fun hi => ?_⟩
  obtain ⟨n, t, ws, hrun, hti, htr, hlen, hphase, hvariant, herr, hbusy, hbytes, hdigest⟩ :=
    everyHostThatFollowsTheProtocolReadsTheDigest.2 v m s _ rest hinv (followsProtocol_listing v hm) hi
  rw [digestResults_of_no_sideRead (sideRead_protocolStmts v m []) hlen] at hbytes hdigest
  exact ⟨n, t, ws, hrun, hti, htr, hphase, hvariant, herr, hbusy, hbytes, hdigest⟩

end Sys2Proof.Machine
end

section
/-! SUPPORT. Faults, rejections and several engines (60_exceptions.md R150-R163): which statements the map stops, the nine checks of a CMD write in their order, who writes ERR, and the step of one engine of a system. -/

namespace Sys2Proof.Machine

/-- The offset that a statement accesses (R69, R70). -/
def Stmt.offset : Stmt → Offset
  | .wr off _ => off
  | .rd off => off
  | .poll off _ _ => off

/-- A statement that the map does not admit ends the run in BUSERR of its offset (R69, R152). -/
theorem step_of_not_admitted {s : State} {st : Stmt} {rest : List Input} (he : s.engineTurn = false)
    (hi : s.inputs = .stmt st :: rest) (ha : st.admitted = false) :
    step s = .fault (.busError st.offset) := by
  rw [step_of_environment he]
  cases st with
  | wr off v =>
    simp only [environmentTurn, hi, transact, (memWrite_fault_iff _ off v).2 ha, Stmt.offset]
  | rd off =>
    simp only [environmentTurn, hi, readStmt, (memRead_eq_none_iff _ off).2 ha, Stmt.offset]
  | poll off mask value =>
    simp only [environmentTurn, hi, pollStmt, (memRead_eq_none_iff _ off).2 ha, Stmt.offset]

/-- A statement that the map admits answers a next state (R69, R70). -/
theorem environmentTurn_of_stmt_admitted {s : State} {st : Stmt} {rest : List Input}
    (hi : s.inputs = .stmt st :: rest) (ha : st.admitted = true) : ∃ t, environmentTurn s = .next t := by
  cases st with
  | wr off v =>
    obtain ⟨t, ht⟩ := memWrite_next ha (s.writeTurn rest) v
    exact ⟨t, by simp only [environmentTurn, hi]; exact ht⟩
  | rd off =>
    obtain ⟨d, hd⟩ := memRead_of_admitted ha (s.takeTurn rest)
    exact ⟨s.afterRead d rest, by simp only [environmentTurn, hi, readStmt, hd]; rfl⟩
  | poll off mask value =>
    obtain ⟨d, hd⟩ := memRead_of_admitted ha s
    simp only [environmentTurn, hi, pollStmt, hd]
    split <;> exact ⟨_, rfl⟩

/-- A step answers a next state, or takes a statement that the map does not admit (R150, R158). -/
theorem step_next_or_not_admitted (s : State) :
    (∃ t, step s = .next t) ∨
    (s.engineTurn = false ∧ ∃ st rest, s.inputs = .stmt st :: rest ∧ st.admitted = false) := by
  cases he : s.engineTurn with
  | true => exact .inl ⟨s.complete, if_pos he⟩
  | false =>
    rw [step_of_environment he]
    cases hi : s.inputs with
    | nil => exact .inl ⟨s.takeTurn [], by simp only [environmentTurn, hi]⟩
    | cons i rest =>
      cases i with
      | stmt st =>
        cases ha : st.admitted with
        | true => exact .inl (environmentTurn_of_stmt_admitted hi ha)
        | false => exact .inr ⟨rfl, st, rest, rfl, ha⟩
      | access a =>
        obtain ⟨t, ht, _⟩ := bareAccess_next (s.takeTurn rest) a
        exact .inl ⟨t, by simp only [environmentTurn, hi, ht]⟩
      | reset cut => exact .inl ⟨s.applyReset cut rest, by simp only [environmentTurn, hi]⟩

/-- Settles O23: every step answers, except one that takes a statement that is not admitted. -/
theorem onlyABusErrorStopsAProgram : Obligations.OnlyABusErrorStopsAProgram := by
  intro s
  rcases step_next_or_not_admitted s with ⟨t, ht⟩ | ⟨he, st, rest, hi, ha⟩
  · refine ⟨by simp [ht], by simp [ht], fun ⟨he, st, rest, hi, ha⟩ => ⟨_, step_of_not_admitted he hi ha⟩⟩
  · have hf := step_of_not_admitted he hi ha
    exact ⟨by simp [hf], fun _ => ⟨he, st, rest, hi, ha⟩, fun _ => ⟨_, hf⟩⟩

/-- A transaction outside a program is answered in the state where the turn has begun (R158). -/
theorem step_access {s : State} {a : Access} {rest : List Input} (he : s.engineTurn = false)
    (hi : s.inputs = .access a :: rest) : step s = bareAccess (s.takeTurn rest) a := by
  simp only [step_of_environment he, environmentTurn, hi]

/-- Settles O22: outside a program the erring access is answered; a statement that errs is not admitted. -/
theorem busErrorAnswersAndChangesNothing : Obligations.BusErrorAnswersAndChangesNothing := by
  refine fun s rest off he => ⟨fun hd hi => ?_, fun v ha hi => ?_, fun hd hi => ?_, fun mask value hd hi => ?_,
    fun v ha hi => step_of_not_admitted he hi ha⟩
  · rw [memRead_eq_none_iff] at hd
    exact (step_access he hi).trans (bareAccess_read_err ((memRead_eq_none_iff _ off).2 hd))
  · exact (step_access he hi).trans (bareAccess_write_err ((memWrite_fault_iff _ off v).2 ha))
  · exact step_of_not_admitted he hi ((memRead_eq_none_iff s off).1 hd)
  · exact step_of_not_admitted he hi ((memRead_eq_none_iff s off).1 hd)

/-- Check 2 of R153 is one check: the mask of the reserved bits is chosen by OP. -/
theorem decode_by_checks (c : Word32) :
    decode c =
      (if 4 ≤ c.toNat % 16 then .illegal .badOpcode
       else if c &&& (if c.toNat % 16 = 1 then 0xFFFFFEF0#32 else 0xFFFFFFF0#32) ≠ 0#32 then
         .illegal .reservedBits
       else if c.toNat % 16 = 0 then .command .nop
       else if c.toNat % 16 = 1 then .command (.init (if c.getLsbD 8 then .sha512 else .sha256))
       else if c.toNat % 16 = 2 then .command .compress
       else .command .final) := by
  rw [decode_eq_pseudocode]
  by_cases hop : c.toNat % 16 = 1 <;> simp [hop]

/-- INIT makes check 4 of R153. -/
theorem exec_init_checks (v : Variant) (s : State) :
    exec (.init v) s = .next (if s.busy = true then s.reject .busy else s.startMessage v) := by
  simp only [exec, execInit, apply_ite Host.Outcome.next]

/-- COMPRESS makes checks 4 and 6 of R153. -/
theorem exec_compress_checks (s : State) :
    exec .compress s = .next (if s.busy = true then s.reject .busy
      else if s.phase ≠ .ready then s.reject .badPhase else s.acceptBlock) := by
  simp only [exec, execCompress, apply_ite Host.Outcome.next]

/-- FINAL makes checks 4, 6 and 8 of R153. -/
theorem exec_final_checks (s : State) :
    exec .final s = .next (if s.busy = true then s.reject .busy
      else if s.phase ≠ .ready then s.reject .badPhase
      else if s.blkcnt = 0#64 then s.reject .noBlock else s.finishMessage) := by
  simp only [exec, execFinal, apply_ite Host.Outcome.next]

/-- Settles O8: decoding makes checks 1 to 3, and each command the ones that are left to it. -/
theorem commandChecksInOrder : Obligations.CommandChecksInOrder := by
  intro s c
  rw [commandWrite, decode_by_checks]
  by_cases hop : 4 ≤ c.toNat % 16
  · simp only [if_pos hop]
    rfl
  simp only [if_neg hop]
  generalize c &&& (if c.toNat % 16 = 1 then 0xFFFFFEF0#32 else 0xFFFFFFF0#32) = reserved
  by_cases hres : reserved ≠ 0#32
  · simp only [if_pos hres]
    rfl
  simp only [if_neg hres]
  by_cases h0 : c.toNat % 16 = 0
  · simp only [if_pos h0]
    rfl
  simp only [if_neg h0]
  by_cases h1 : c.toNat % 16 = 1
  · simp only [if_pos h1]
    exact exec_init_checks _ s
  simp only [if_neg h1]
  by_cases h2 : c.toNat % 16 = 2
  · simp only [if_pos h2]
    exact exec_compress_checks s
  · simp only [if_neg h2]
    exact exec_final_checks s

/-- No rejection writes NONE (R151). -/
theorem rejectionCode_ne_none {s : State} {c : Word32} {e : ErrCode} (h : rejectionCode s c = some e) :
    e ≠ .none := by
  rintro rfl
  unfold rejectionCode at h
  split at h
  · cases h
  · cases h
  · split_ifs at h <;> cases h

/-- Who can write ERR in a step: an accepted INIT and a reset clear it, and a rejected CMD write sets its
code; every other step leaves it (R25, R155). -/
theorem step_err {s t : State} (hs : step s = .next t) :
    ((s.initNext = true ∨ s.resetNext = true) ∧ t.err = .none) ∨
    (s.engineTurn = false ∧ s.acceptedNext = none ∧ s.initNext = false ∧ s.resetNext = false ∧
      ∃ c rest e, WriteWaits s Config.cmdOffset c rest ∧ rejectionCode s c = some e ∧ t.err = e) ∨
    (s.initNext = false ∧ s.resetNext = false ∧ t.err = s.err) := by
  rcases step_effects hs with ⟨_, hr, _, hn, rfl⟩ | ⟨_, hr, _, _, _, _, _, rfl⟩ |
    ⟨he, hr, ha, hn, u, hu, _, hx⟩ | ⟨_, hr, i, u, ha, _, hu, _, rfl⟩
  · exact .inr (.inr ⟨hn, hr, rfl⟩)
  · exact .inl ⟨.inr hr, rfl⟩
  · rcases hx with rfl | ⟨e, c, rest, hw, hc, _, rfl⟩ | ⟨_, _, _, _, _, _, rfl⟩
    · exact .inr (.inr ⟨hn, hr, hu.err⟩)
    · exact .inr (.inl ⟨he, ha, hn, hr, c, rest, e, hw, hc, rfl⟩)
    · exact .inr (.inr ⟨hn, hr, hu.err⟩)
  · cases i with
    | init v => exact .inl ⟨.inl (by simp [State.initNext, ha]), rfl⟩
    | nop => exact .inr (.inr ⟨by simp [State.initNext, ha], hr, hu.err⟩)
    | compress => exact .inr (.inr ⟨by simp [State.initNext, ha], hr, hu.err⟩)
    | final => exact .inr (.inr ⟨by simp [State.initNext, ha], hr, hu.err⟩)

/-- A step that takes a rejected CMD write is its rejection (R151, R153). -/
theorem step_of_rejected {s : State} {c : Word32} {rest : List Input} {e : ErrCode} (he : s.engineTurn = false)
    (hw : WriteWaits s Config.cmdOffset c rest) (hc : rejectionCode s c = some e) :
    step s = .next ((s.writeTurn rest).reject e) := by
  rw [step_of_cmdWrite he hw]
  exact commandWrite_rejected (by rw [rejectionCode_writeTurn, hc])

/-- An accepted command other than INIT, and COMPLETE, come in a step that neither INIT nor reset takes. -/
theorem not_init_not_reset {s : State}
    (h : s.acceptedNext = some .nop ∨ s.acceptedNext = some .compress ∨ s.acceptedNext = some .final ∨
      s.engineTurn = true) : s.initNext = false ∧ s.resetNext = false := by
  rcases h with ha | ha | ha | he
  · exact ⟨by simp [State.initNext, ha], resetNext_of_accepted ha⟩
  · exact ⟨by simp [State.initNext, ha], resetNext_of_accepted ha⟩
  · exact ⟨by simp [State.initNext, ha], resetNext_of_accepted ha⟩
  · obtain ⟨_, _, hr, hn⟩ := engineTurn_excludes he
    exact ⟨(acceptedNext_of_none hn).2, hr⟩

/-- Settles O40, by the writers of ERR and by the step that takes a rejected write. -/
theorem errIsSticky : Obligations.ErrIsSticky := by
  refine fun s t hs => ⟨fun h => ?_, fun c rest e he hw hc => ?_, fun hn hr hne => ?_, fun h => ?_⟩
  · rcases step_err hs with ⟨_, herr⟩ | ⟨_, _, hn, hr, _⟩ | ⟨hn, hr, _⟩
    · exact herr
    · simp [hn, hr] at h
    · simp [hn, hr] at h
  · cases hs.symm.trans (step_of_rejected he hw hc)
    exact ⟨rfl, rejectionCode_ne_none hc, rfl, rfl, rfl, rfl, rfl, rfl, rfl⟩
  · rcases step_err hs with ⟨h, _⟩ | ⟨he, _, _, _, hw⟩ | ⟨_, _, herr⟩
    · simp [hn, hr] at h
    · exact ⟨he, hw⟩
    · exact absurd herr hne
  · obtain ⟨hn, hr⟩ := not_init_not_reset h
    rcases step_err hs with ⟨h', _⟩ | ⟨he, ha, _⟩ | ⟨_, _, herr⟩
    · simp [hn, hr] at h'
    · simp [he, ha] at h
    · exact herr

/-- Where no turns are left to count, the turn's preparation takes the input and answers. -/
theorem State.writeTurn_of_no_turns {s : State} (hl : s.latencyLeft = 0) (rest : List Input) :
    s.writeTurn rest = { s with inputs := rest, reply := some ⟨true, false, none⟩ } := by
  simp only [State.writeTurn, State.takeTurn, State.answer, writeAck, hl]

/-- A step that takes a CMD write of a command executes it (R115). -/
theorem step_of_command {s : State} {c : Word32} {i : Instr} {rest : List Input} (he : s.engineTurn = false)
    (hw : WriteWaits s Config.cmdOffset c rest) (hd : decode c = .command i) :
    step s = exec i (s.writeTurn rest) := by
  rw [step_of_cmdWrite he hw, commandWrite, hd]

/-- Settles O12: the turns that are left say whether COMPLETE or the command comes first. -/
theorem completeAndCommandInEitherOrder : Obligations.CompleteAndCommandInEitherOrder := by
  refine fun s c i rest hb hi hd hnop => ⟨fun hl => ?_, fun hl => ?_⟩
  · have he : s.engineTurn = false := by simp [State.engineTurn, hl]
    exact ⟨(s.writeTurn rest).reject .busy,
      (step_of_command he (.inl hi) hd).trans (exec_of_busy (s := s.writeTurn rest) hb hnop),
      rfl, rfl, hb, rfl, rfl, rfl⟩
  · have he : s.engineTurn = true := by simp [State.engineTurn, State.resetNext, hb, hl, hi]
    have hidle : s.complete.engineTurn = false := engineTurn_of_not_busy s.complete_busy
    obtain ⟨u, hu⟩ := exec_next i (s.complete.writeTurn rest)
    refine ⟨s.complete, if_pos he, rfl, rfl, rfl, rfl, u, (step_of_command hidle (.inl hi) hd).trans hu, ?_⟩
    rw [← State.writeTurn_of_no_turns (s := s.complete) hl rest]
    exact hu

/-- A system steps at `i` to a next system iff its engine `i` steps, and only that engine is replaced (R163). -/
theorem System.stepAt_eq_next_iff (a : System) (i : Nat) (a' : System) :
    a.stepAt i = some (.next a') ↔ ∃ s t, a[i]? = some s ∧ step s = .next t ∧ a' = a.set i t := by
  unfold System.stepAt
  cases hs : a[i]? with
  | none => simp
  | some s => cases ht : step s <;> simp [ht, eq_comm]

/-- Settles O53: the step reads engine `i` alone, and replaces it alone. -/
theorem instancesAreIndependent : Obligations.InstancesAreIndependent := by
  intro a b i a' hstep
  obtain ⟨s, t, hs, ht, rfl⟩ := (System.stepAt_eq_next_iff a i a').1 hstep
  refine ⟨List.length_set, fun j hj => List.getElem?_set_ne hj.symm, fun hb => ?_⟩
  refine ⟨b.set i t, (System.stepAt_eq_next_iff b i _).2 ⟨s, t, hb.trans hs, ht, rfl⟩, ?_⟩
  rw [List.getElem?_set_self', List.getElem?_set_self', hb]

end Sys2Proof.Machine
end

section
/-! SUPPORT. Reset and the count of transactions (70_reset_and_hazards.md R170, R171, R182): every element after a reset has its reset value, and how many statements of the protocol are not WAITs. -/

namespace Sys2Proof.Machine

/-- Every element of the engine has its reset value (R170), and the two registers that show a constant
then, STATUS and ID, read it. -/
structure AtReset (t : State) : Prop where
  phase : t.phase = .idle
  busy : t.busy = false
  variant : t.variant = .sha256
  err : t.err = .none
  blkcnt : t.blkcnt = 0#64
  blk : ∀ i, t.blkByte i = 0#8
  h : ∀ j : Fin 8, t.h[j] = 0#64
  l : ∀ k : Fin 16, t.l[k] = 0#64
  status : memRead t 0x008#10 = some 0#32
  id : memRead t 0x000#10 = some 0x53484132#32

/-- STATUS reads 0 after a reset (R170). -/
theorem statusWord_applyReset (s : State) (cut : Option Access) (rest : List Input) :
    (s.applyReset cut rest).statusWord = 0#32 := by
  simp only [State.statusWord, State.applyReset_err, State.applyReset_variant, State.applyReset_busy,
    State.applyReset_phase]
  rfl

/-- What a reset leaves depends neither on the state before it nor on what it cuts off (R170, R171). -/
theorem atReset_applyReset (s : State) (cut : Option Access) (rest : List Input) :
    AtReset (s.applyReset cut rest) where
  phase := s.applyReset_phase cut rest
  busy := s.applyReset_busy cut rest
  variant := s.applyReset_variant cut rest
  err := s.applyReset_err cut rest
  blkcnt := s.applyReset_blkcnt cut rest
  blk _ := rfl
  h _ := Vector.getElem_replicate _
  l _ := Vector.getElem_replicate _
  status := congrArg some (statusWord_applyReset s cut rest)
  id := rfl

/-- A reset that is next is the step, a COMPLETE that is due included (R154, R170). -/
theorem step_of_reset {s : State} {cut : Option Access} {rest : List Input} (hi : s.inputs = .reset cut :: rest) :
    step s = .next (s.applyReset cut rest) := by
  have he : s.engineTurn = false := by simp [State.engineTurn, State.resetNext, hi]
  rw [step_of_environment he, environmentTurn, hi]

/-- Settles O44: the step is the reset, which leaves every element at its reset value; the state after
reset is a reset of itself. -/
theorem resetWinsAndClearsEverything : Obligations.ResetWinsAndClearsEverything := by
  refine ⟨fun s cut rest hi => ?_, ?_⟩
  · have ht := atReset_applyReset s cut rest
    exact ⟨_, step_of_reset hi, ht.phase, ht.busy, ht.variant, ht.err, ht.blkcnt, ht.blk, ht.h, ht.l,
      ht.status, ht.id, engineTurn_of_not_busy ht.busy⟩
  · have hr : AtReset State.reset := atReset_applyReset State.reset none []
    exact ⟨hr.phase, hr.busy, hr.variant, hr.err, hr.blkcnt, hr.blk, hr.h, hr.l, hr.status, hr.id⟩

/-- How many transactions a program makes besides its WAITs (R182). -/
def nonWaitCount (stmts : List Stmt) : Nat := (stmts.filter fun st => st != waitStmt).length

@[simp] theorem nonWaitCount_append (xs ys : List Stmt) :
    nonWaitCount (xs ++ ys) = nonWaitCount xs + nonWaitCount ys := by
  simp [nonWaitCount]

@[simp] theorem nonWaitCount_wait : nonWaitCount [waitStmt] = 0 := rfl

@[simp] theorem nonWaitCount_wrCmd (c : Word32) : nonWaitCount [wrCmd c] = 1 := rfl

/-- LDBLK makes a write a word of its bytes (R73). -/
@[simp] theorem nonWaitCount_ldblkStmts (b : List Byte) : nonWaitCount (ldblkStmts b) = b.length / 4 := by
  have hwrites : ∀ st ∈ ldblkStmts b, (st != waitStmt) = true := by
    simp [ldblkStmts, waitStmt]
  rw [nonWaitCount, List.filter_eq_self.2 hwrites, ldblkStmts, List.length_map, List.length_range]

/-- RDDIG makes a read a word of the digest (R74). -/
@[simp] theorem nonWaitCount_rddigStmts (v : Variant) : nonWaitCount (rddigStmts v) = v.digestBytes / 4 := by
  cases v <;> rfl

/-- Each block costs its words and its COMPRESS (R182). -/
theorem nonWaitCount_feedBlocks {v : Variant} {blocks : List (List Byte)}
    (hlen : ∀ b ∈ blocks, b.length = v.blockBytes) :
    nonWaitCount (feedBlocks 0 [] blocks) = (v.blockBytes / 4 + 1) * blocks.length := by
  induction blocks with
  | nil => rfl
  | cons b rest ih =>
    obtain ⟨hb, hrest⟩ := List.forall_mem_cons.1 hlen
    rw [feedBlocks_cons, List.headD_nil, List.take_zero, List.append_nil, List.drop_zero]
    simp only [nonWaitCount_append, nonWaitCount_ldblkStmts, nonWaitCount_wrCmd, nonWaitCount_wait, hb,
      List.tail_nil, ih hrest, List.length_cons]
    ring

/-- The listing makes INIT, the words and the COMPRESS of each block, FINAL and the digest reads (R142, R182). -/
theorem nonWaitCount_protocolStmts (v : Variant) (m : List Byte) :
    nonWaitCount (protocolStmts v m []) =
      1 + (v.blockBytes / 4 + 1) * (blocksOf v (pad v m)).length + 1 + v.digestBytes / 4 := by
  have hstart : nonWaitCount [waitStmt, wrCmd (encode (.init v))] = 1 := rfl
  simp only [protocolStmts, nonWaitCount_append, hstart, nonWaitCount_wrCmd, nonWaitCount_rddigStmts,
    nonWaitCount_feedBlocks fun _ => length_of_mem_blocksOf]

/-- Settles O52, by the expansion of the listing and its count. -/
theorem protocolTransactionCount : Obligations.ProtocolTransactionCount := by
  intro v m hm
  obtain ⟨prog, hprog, hexp⟩ := hostProtocol_expand (v := v) hm
  refine ⟨prog, _, hprog, hexp, ?_⟩
  have hcount := nonWaitCount_protocolStmts v m
  cases v with
  | sha256 => exact hcount
  | sha512 => exact hcount

end Sys2Proof.Machine
end
